-- ==== Sys2Proof/Word.lean ====
section
/-! DEFINITION. The machine's word: every register, address, instruction and memory word is a 16-bit value (R6, R8). -/

namespace Sys2Proof

/-- A 16-bit value, bit 15 the most significant (R7, R8). `+` on words is addition modulo 65536 (R10). -/
abbrev Word := BitVec 16

/-- The index of a general register: a 3-bit instruction field or the constant 7 (R20, R21). -/
abbrev Reg := Fin 8

end Sys2Proof
end

