-- ==== Sys2Proof/Syntax.lean ====
section
/-! DEFINITION. The instruction forms: one constructor per row of spec/opcode_table.json (R67, R71). An instruction
holds its operand fields and nothing else; the bits the decoder ignores are not part of it (R69, U10). -/

namespace Sys2Proof

/-- The seventeen instruction forms of R71 and the two invalid opcodes of R68. Offsets and immediates are the raw
fields; the meanings extend them (R64, R65, R66). -/
inductive Instr where
  | addReg (dr sr1 sr2 : Reg)                     -- R100
  | addImm (dr sr1 : Reg) (imm5 : BitVec 5)       -- R101
  | andReg (dr sr1 sr2 : Reg)                     -- R102
  | andImm (dr sr1 : Reg) (imm5 : BitVec 5)       -- R103
  | not (dr sr : Reg)                             -- R104
  | br (n z p : Bool) (off9 : BitVec 9)           -- R110
  | jmp (base : Reg)                              -- R111
  | jsr (off11 : BitVec 11)                       -- R112
  | jsrr (base : Reg)                             -- R113
  | ld (dr : Reg) (off9 : BitVec 9)               -- R120
  | ldi (dr : Reg) (off9 : BitVec 9)              -- R121
  | ldr (dr base : Reg) (off6 : BitVec 6)         -- R122
  | lea (dr : Reg) (off9 : BitVec 9)              -- R123
  | st (sr : Reg) (off9 : BitVec 9)               -- R130
  | sti (sr : Reg) (off9 : BitVec 9)              -- R131
  | str (sr base : Reg) (off6 : BitVec 6)         -- R132
  | trap (vect8 : BitVec 8)                       -- R140
  | invalid8                                      -- R150, opcode 0x8
  | invalidD                                      -- R150, opcode 0xD
deriving DecidableEq, Repr

/-- The names of the rows of spec/opcode_table.json, in the table's order. -/
inductive Form where
  | addReg | addImm | andReg | andImm | not | br | jmp | jsr | jsrr | ld | ldi | ldr | lea | st | sti | str | trap
  | invalid8 | invalidD
deriving DecidableEq, Repr

/-- The row of the opcode table an instruction belongs to. -/
def Instr.form : Instr → Form
  | .addReg _ _ _ => .addReg
  | .addImm _ _ _ => .addImm
  | .andReg _ _ _ => .andReg
  | .andImm _ _ _ => .andImm
  | .not _ _ => .not
  | .br _ _ _ _ => .br
  | .jmp _ => .jmp
  | .jsr _ => .jsr
  | .jsrr _ => .jsrr
  | .ld _ _ => .ld
  | .ldi _ _ => .ldi
  | .ldr _ _ _ => .ldr
  | .lea _ _ => .lea
  | .st _ _ => .st
  | .sti _ _ => .sti
  | .str _ _ _ => .str
  | .trap _ => .trap
  | .invalid8 => .invalid8
  | .invalidD => .invalidD

/-- The mnemonic of a row, as spec/opcode_table.json spells it. -/
def Form.mnemonic : Form → String
  | .addReg | .addImm => "ADD"
  | .andReg | .andImm => "AND"
  | .not => "NOT"
  | .br => "BR"
  | .jmp => "JMP"
  | .jsr => "JSR"
  | .jsrr => "JSRR"
  | .ld => "LD"
  | .ldi => "LDI"
  | .ldr => "LDR"
  | .lea => "LEA"
  | .st => "ST"
  | .sti => "STI"
  | .str => "STR"
  | .trap => "TRAP"
  | .invalid8 => "INVALID_8"
  | .invalidD => "INVALID_D"

end Sys2Proof
end

