-- ==== Sys2Proof/Decode.lean ====
section
/-! DEFINITION. The decoder (R72), total on all 65536 words, the opcode table's rows as mask and pattern (R61, R67,
opcode_table.json), and the encoder (R77). -/

namespace Sys2Proof

/-- The field of `len` bits of `w` whose lowest bit is bit `lo`: `w[lo+len-1 : lo]` (R7). -/
def bitField (w : Word) (lo len : Nat) : BitVec len := w.extractLsb' lo len

/-- One bit of a word (R7). -/
def bitAt (w : Word) (k : Nat) : Bool := w.getLsbD k

/-- The register index held by the 3-bit field at `lo`, used directly as an index 0..7 (R62). -/
def regField (w : Word) (lo : Nat) : Reg := (bitField w lo 3).toFin

/-- The sixteen opcode values by name (R67). Opcode 0x4 is JSR and JSRR together, and ADD's and AND's two modes share
theirs. -/
inductive Opcode where
  | br | add | ld | st | jsr | and | ldr | str | invalid8 | not | ldi | sti | jmp | invalidD | lea | trap
deriving DecidableEq, Repr

/-- The dispatch table keyed by `ir[15:12]` (R60, R67, R89): entry k is the opcode whose value is k. -/
def opcodeTable : Vector Opcode 16 :=
  #v[.br, .add, .ld, .st, .jsr, .and, .ldr, .str, .invalid8, .not, .ldi, .sti, .jmp, .invalidD, .lea, .trap]

/-- The opcode of an instruction word: `w[15:12]` looked up in the table (R60). -/
def opcodeOf (w : Word) : Opcode := opcodeTable[(bitField w 12 4).toFin]

/-- The decoding algorithm of R72. -/
def decode (w : Word) : Instr :=
  match opcodeOf w with
  | .br => .br (bitAt w 11) (bitAt w 10) (bitAt w 9) (bitField w 0 9)
  | .add =>
    if bitAt w 5 then .addImm (regField w 9) (regField w 6) (bitField w 0 5)
    else .addReg (regField w 9) (regField w 6) (regField w 0)
  | .ld => .ld (regField w 9) (bitField w 0 9)
  | .st => .st (regField w 9) (bitField w 0 9)
  | .jsr => if bitAt w 11 then .jsr (bitField w 0 11) else .jsrr (regField w 6)
  | .and =>
    if bitAt w 5 then .andImm (regField w 9) (regField w 6) (bitField w 0 5)
    else .andReg (regField w 9) (regField w 6) (regField w 0)
  | .ldr => .ldr (regField w 9) (regField w 6) (bitField w 0 6)
  | .str => .str (regField w 9) (regField w 6) (bitField w 0 6)
  | .invalid8 => .invalid8
  | .not => .not (regField w 9) (regField w 6)
  | .ldi => .ldi (regField w 9) (bitField w 0 9)
  | .sti => .sti (regField w 9) (bitField w 0 9)
  | .jmp => .jmp (regField w 6)
  | .invalidD => .invalidD
  | .lea => .lea (regField w 9) (bitField w 0 9)
  | .trap => .trap (bitField w 0 8)

/-- A field of an instruction word, its lowest bit placed at bit `lo`: the `f << lo` of R77. -/
def place {n : Nat} (f : BitVec n) (lo : Nat) : Word := f.setWidth 16 <<< lo

/-- The 3 bits of a register index (R62). -/
def regBits (r : Reg) : BitVec 3 := BitVec.ofFin r

/-- A register index placed as a 3-bit field. -/
def placeReg (r : Reg) (lo : Nat) : Word := place (regBits r) lo

/-- A condition bit of BR placed at bit `lo`. -/
def placeBit (b : Bool) (lo : Nat) : Word := place (BitVec.ofBool b) lo

/-- The word of an instruction, by the formulas of R77. The bits the decoder ignores are written 0, but for NOT's low
six, which are written 1 (R75). -/
def encode : Instr → Word
  | .addReg dr sr1 sr2 => 0x1000 ||| placeReg dr 9 ||| placeReg sr1 6 ||| placeReg sr2 0
  | .addImm dr sr1 imm5 => 0x1020 ||| placeReg dr 9 ||| placeReg sr1 6 ||| place imm5 0
  | .andReg dr sr1 sr2 => 0x5000 ||| placeReg dr 9 ||| placeReg sr1 6 ||| placeReg sr2 0
  | .andImm dr sr1 imm5 => 0x5020 ||| placeReg dr 9 ||| placeReg sr1 6 ||| place imm5 0
  | .not dr sr => 0x903F ||| placeReg dr 9 ||| placeReg sr 6
  | .br n z p off9 => placeBit n 11 ||| placeBit z 10 ||| placeBit p 9 ||| place off9 0
  | .jmp base => 0xC000 ||| placeReg base 6
  | .jsr off11 => 0x4800 ||| place off11 0
  | .jsrr base => 0x4000 ||| placeReg base 6
  | .ld dr off9 => 0x2000 ||| placeReg dr 9 ||| place off9 0
  | .ldi dr off9 => 0xA000 ||| placeReg dr 9 ||| place off9 0
  | .ldr dr base off6 => 0x6000 ||| placeReg dr 9 ||| placeReg base 6 ||| place off6 0
  | .lea dr off9 => 0xE000 ||| placeReg dr 9 ||| place off9 0
  | .st sr off9 => 0x3000 ||| placeReg sr 9 ||| place off9 0
  | .sti sr off9 => 0xB000 ||| placeReg sr 9 ||| place off9 0
  | .str sr base off6 => 0x7000 ||| placeReg sr 9 ||| placeReg base 6 ||| place off6 0
  | .trap vect8 => 0xF000 ||| place vect8 0
  | .invalid8 => 0x8000
  | .invalidD => 0xD000

/-- The "mask" of a row of opcode_table.json: the bits the row fixes. -/
def Form.mask : Form → Word
  | .addReg | .addImm | .andReg | .andImm => 0xF020
  | .jsr | .jsrr => 0xF800
  | .not | .br | .jmp | .ld | .ldi | .ldr | .lea | .st | .sti | .str | .trap | .invalid8 | .invalidD => 0xF000

/-- The "match" of a row of opcode_table.json: the value of the bits under the row's mask. -/
def Form.pattern : Form → Word
  | .addReg => 0x1000
  | .addImm => 0x1020
  | .andReg => 0x5000
  | .andImm => 0x5020
  | .not => 0x9000
  | .br => 0x0000
  | .jmp => 0xC000
  | .jsr => 0x4800
  | .jsrr => 0x4000
  | .ld => 0x2000
  | .ldi => 0xA000
  | .ldr => 0x6000
  | .lea => 0xE000
  | .st => 0x3000
  | .sti => 0xB000
  | .str => 0x7000
  | .trap => 0xF000
  | .invalid8 => 0x8000
  | .invalidD => 0xD000

/-- The bits of a form that take no part in decoding or execution (R68, R69). -/
def Form.ignored : Form → Word
  | .addReg | .andReg => 0x0018
  | .not => 0x003F
  | .jmp => 0x0E3F
  | .jsrr => 0x063F
  | .trap => 0x0F00
  | .invalid8 | .invalidD => 0x0FFF
  | .addImm | .andImm | .br | .jsr | .ld | .ldi | .ldr | .lea | .st | .sti | .str => 0x0000

/-- What this spec's own encodings write into a form's ignored bits: zeros, but ones for NOT (R75). -/
def Form.ignoredFill : Form → Word
  | .not => 0x003F
  | .addReg | .addImm | .andReg | .andImm | .br | .jmp | .jsr | .jsrr | .ld | .ldi | .ldr | .lea | .st | .sti | .str
  | .trap | .invalid8 | .invalidD => 0x0000

/-- The instruction the decoder reads from the word whose low `nbits` bits are those of `w`, the bits above them zero.
An instruction is one word of 16 bits (R60): no longer one exists, and the decoder refuses none of the 65536 words
(R71; the two invalid opcodes decode to constructors of their own). -/
def decodeTableWord (nbits w : Nat) : Option Instr :=
  if nbits ≤ 16 then some (decode (BitVec.ofNat 16 (w % 2 ^ nbits))) else none

end Sys2Proof
end

