-- ==== Sys2Proof/Config.lean ====
section
/-! DEFINITION. What the spec fixes for every machine of this kind, and the types of its open parameters (00_scope.md R6).
The values chosen for the parameters stand in Sys2Proof/Machine/Parameters.lean. The spec leaves no result undefined
(93_implementation_defined.md, opening words), so there is no free value here. -/

namespace Sys2Proof.Config

/-- `MEM_WORDS`: the number of words of memory, and one more than the highest address (R6, R40). -/
def memWords : Nat := 65536

/-- `TRAP_TABLE`: the number of entries of the trap vector table, which starts at address 0 (R6, R49). -/
def trapTableWords : Nat := 256

/-- The two values the spec admits for the flags after reset, `CC_RESET` (R6, R34, D2). -/
inductive CcReset where
  | allZero  -- (N,Z,P) = (0,0,0), the spec's default
  | zSet     -- (N,Z,P) = (0,1,0)
deriving DecidableEq, Repr

end Sys2Proof.Config
end

