-- ==== Sys2Proof/Machine/Parameters.lean ====
section
/-! DEFINITION. The values taken for the spec's open parameters, each the spec's own default (00_scope.md R6,
92_eei_decisions.md section 7), and the two constants the instruction and host rules use. -/

namespace Sys2Proof.Machine.Params

/-- `CC_RESET`: the flags after reset are (0,0,0) (R34, D2; log entry 2). -/
def ccReset : Config.CcReset := .allZero

/-- `JSRR_LINK_FIRST`: JSRR writes R7 before it reads its base register (R113, D7; log entry 3). -/
def jsrrLinkFirst : Bool := true

/-- The link register of JSR, JSRR and TRAP (R22). -/
def linkReg : Reg := 7

/-- `DEFAULT_ORIGIN`: where `load_program` loads when no start is given (R6, R174). -/
def defaultOrigin : Word := 0x3000

end Sys2Proof.Machine.Params
end

