-- ==== Sys2Proof/Machine/State.lean ====
section
/-! DEFINITION. The state of the machine: the tuple of R36 and nothing else (R29, R31), as plain data, and its value
after reset (R33). -/

namespace Sys2Proof.Machine

/-- The condition-code flags N, Z, P (R26). -/
structure Flags where
  n : Bool
  z : Bool
  p : Bool
deriving DecidableEq, Repr

/-- Memory: the words that differ from 0x0000, by address, addresses strictly rising (R40, R41; log entry 1). The
addressable unit is the 16-bit word: the machine has no bytes (R40, R46). -/
abbrev Memory := List (Nat × Word)

/-- The whole state: eight general registers (R20), PC (R23), IR (R25), the flags (R26) and memory (R40). -/
structure State where
  regs : Vector Word 8
  pc : Word
  ir : Word
  cc : Flags
  mem : Memory
deriving DecidableEq, Repr

/-- Why a step stops. -/
inductive Fault where
  /-- Raised by the decode phase for an instruction word whose opcode is 0x8 or 0xD (R150): the run ends and the error
  is handed to the host. Carries the opcode and the state the aborted cycle leaves, in which only the fetch has been
  done (R84's `Fault(InvalidOpcode, op, s1)`, R151). Safe: it is the outcome the spec itself gives. -/
  | invalidOpcode (opcode : BitVec 4) (after : State)
deriving DecidableEq, Repr

/-- Why a request has no meaning. -/
inductive Refusal where
  /-- Raised by exec's arm of an instruction that has no meaning yet; no arm does now. Safe. -/
  | notModelled (mnemonic : String)
  /-- Raised by the host port for a `load_program` or a `peek_memory` that runs past address 0xFFFF: the request is
  refused and nothing changes (R56, D17, D18). No step raises it. Safe. -/
  | transferDoesNotFit (start : Word) (len : Nat)
  /-- Raised by the host port for any request made in another phase than IDLE, a reset among them: the host has no move
  during a run (R96, R177, D19; log entry 8). No step raises it. Safe. -/
  | hostPortBusy
deriving DecidableEq, Repr

/-- The flags after reset, for each value the spec admits (R34, D2). -/
def Flags.afterReset : Config.CcReset → Flags
  | .allZero => { n := false, z := false, p := false }
  | .zSet => { n := false, z := true, p := false }

/-- The state after reset with a given `CC_RESET`: every register and every word of memory zero (R33, R170). -/
def State.resetWith (c : Config.CcReset) : State :=
  { regs := Vector.replicate 8 0, pc := 0, ir := 0, cc := Flags.afterReset c, mem := [] }

/-- The state right after reset (R33, R170). -/
def State.reset : State := State.resetWith Params.ccReset

end Sys2Proof.Machine
end

