-- ==== Sys2Proof/Machine/Ops.lean ====
section
/-! DEFINITION. The named operations over memory and registers: the primitives of R11, the fetch step of R81, the link
of R22 and the one error of R150. -/

namespace Sys2Proof.Machine

/-- The word at an address: the one listed, or 0x0000 if none is (R33, R41). -/
def Memory.lookup : Memory → Nat → Word
  | [], _ => 0
  | (k, v) :: m, a => if k = a then v else Memory.lookup m a

/-- Memory without an entry for an address. -/
def Memory.erase : Memory → Nat → Memory
  | [], _ => []
  | (k, v) :: m, a => if k = a then Memory.erase m a else (k, v) :: Memory.erase m a

/-- Memory with an entry added where the rising order of addresses puts it. -/
def Memory.insert : Memory → Nat → Word → Memory
  | [], a, v => [(a, v)]
  | (k, w) :: m, a, v => if k < a then (k, w) :: Memory.insert m a v else (a, v) :: (k, w) :: m

/-- Memory with a word stored. An entry is kept only for a word other than 0x0000, what an unlisted address reads as. -/
def Memory.store (m : Memory) (a : Nat) (v : Word) : Memory :=
  if v = 0 then Memory.erase m a else Memory.insert (Memory.erase m a) a v

/-- Every address listed lies above a bound, and the addresses rise. -/
def Memory.risingFrom : Nat → Memory → Bool
  | _, [] => true
  | b, (k, _) :: m => decide (b ≤ k) && Memory.risingFrom (k + 1) m

/-- The canonical form: addresses strictly rising, all below 65536, no entry holding 0x0000. -/
def Memory.wf (m : Memory) : Bool :=
  Memory.risingFrom 0 m && m.all (fun c => decide (c.1 < Config.memWords) && decide (c.2 ≠ 0))

/-- `x[i]`: read a general register (R11, R20). -/
def State.readReg (s : State) (r : Reg) : Word := s.regs[r]

/-- `x[i] <- v`: write a general register; none is hard-wired (R11, R20). -/
def State.writeReg (s : State) (r : Reg) (v : Word) : State := { s with regs := s.regs.set r v }

/-- `pc <- t` (R11). -/
def State.setPc (s : State) (t : Word) : State := { s with pc := t }

/-- `ir <- w`: done by the fetch step only (R25). -/
def State.setIr (s : State) (w : Word) : State := { s with ir := w }

/-- Write the three flags. -/
def State.setFlags (s : State) (c : Flags) : State := { s with cc := c }

/-- `MemRead(a, 1)`: always succeeds and changes nothing (R43). -/
def State.readMem (s : State) (a : Word) : Word := s.mem.lookup a.toNat

/-- `MemWrite(a, 1, v)`: always succeeds and changes one word (R44). -/
def State.writeMem (s : State) (a v : Word) : State := { s with mem := s.mem.store a.toNat v }

/-- The fetch step: `ir <- MemRead(pc, 1); pc <- pc + 1` (R81). It cannot fail. -/
def fetch (s : State) : State := (s.setIr (s.readMem s.pc)).setPc (s.pc + 1)

/-- `x[7] <- pc`: the return address of JSR, JSRR and TRAP; `pc` is already one past the instruction (R22, R112). -/
def link (s : State) : State := s.writeReg Params.linkReg s.pc

/-- `raise InvalidOpcode(op)`: the cycle ends with the error and nothing more is written. No state is saved, no mode
changes and no vector is consulted: the error goes to the host (R150, R151, R156). -/
def raiseInvalidOpcode (op : BitVec 4) (s : State) : Host.Outcome State Fault Refusal :=
  .fault (.invalidOpcode op s)

end Sys2Proof.Machine
end

