-- ==== Sys2Proof/Machine/Flags.lean ====
section
/-! DEFINITION. The flag computations: `setcc` (R27), the write of a flag-setting result, and BR's condition (R110). -/

namespace Sys2Proof.Machine

/-- `setcc(v)`: exactly one flag, Z if the value is 0, N if its bit 15 is set, P otherwise (R27). -/
def setcc (v : Word) : Flags :=
  if v = 0 then { n := false, z := true, p := false }
  else if v.msb then { n := true, z := false, p := false }
  else { n := false, z := false, p := true }

/-- `x[DR] <- v; setcc(v)`: how every flag-setting instruction ends (R28). -/
def State.writeResult (s : State) (dr : Reg) (v : Word) : State := (s.writeReg dr v).setFlags (setcc v)

/-- BR's condition: some encoded condition bit meets its flag (R110). -/
def condMet (n z p : Bool) (c : Flags) : Bool := (n && c.n) || (z && c.z) || (p && c.p)

end Sys2Proof.Machine
end

