-- ==== Sys2Proof/Machine/Operands.lean ====
section
/-! DEFINITION. The operand forms: sign and zero extension (R9) and the addressing modes (R124, R140). -/

namespace Sys2Proof.Machine

/-- `sext_N(f)`: an N-bit field sign-extended to a word (R9). -/
def sext {n : Nat} (f : BitVec n) : Word := f.signExtend 16

/-- `zext_N(f)`: an N-bit field zero-extended to a word (R9, R66). -/
def zext {n : Nat} (f : BitVec n) : Word := f.setWidth 16

/-- `pc + sext(offset)` modulo 65536, `pc` being one past the instruction: the address or target of BR, JSR, LD, LEA,
ST, and of the pointer of LDI and STI (R24, R45, R124). -/
def pcRelative {n : Nat} (off : BitVec n) (s : State) : Word := s.pc + sext off

/-- `x[BaseR] + sext_6(offset6)` modulo 65536: the address of LDR and STR (R124). -/
def baseOffset (base : Reg) (off6 : BitVec 6) (s : State) : Word := s.readReg base + sext off6

/-- The word at the PC-relative address, used as the address of the datum: LDI and STI (R45, R124). -/
def indirect (off9 : BitVec 9) (s : State) : Word := s.readMem (pcRelative off9 s)

/-- The address of a trap vector's entry in the table at 0x0000..0x00FF (R66, R140). -/
def trapEntry (vect8 : BitVec 8) : Word := zext vect8

end Sys2Proof.Machine
end

