-- ==== Sys2Proof/Machine/ControlTransfer.lean ====
section
/-! DEFINITION. BR, JMP, JSR, JSRR (42_control_transfer.md). No flag is written, any target is legal, and there is no
delay slot. -/

namespace Sys2Proof.Machine

/-- BR: a no-operation unless an encoded condition bit meets its flag (R110). -/
def execBr (n z p : Bool) (off9 : BitVec 9) (s : State) : Host.Outcome State Fault Refusal :=
  .next (if condMet n z p s.cc then s.setPc (pcRelative off9 s) else s)

/-- JMP (R111). -/
def execJmp (base : Reg) (s : State) : Host.Outcome State Fault Refusal :=
  .next (s.setPc (s.readReg base))

/-- JSR (R112). -/
def execJsr (off11 : BitVec 11) (s : State) : Host.Outcome State Fault Refusal :=
  .next ((link s).setPc (pcRelative off11 s))

/-- The target of JSRR under either value of `JSRR_LINK_FIRST`: the base register as read after R7 has been written,
or before (R113, D7). -/
def jsrrTarget (linkFirst : Bool) (base : Reg) (s : State) : Word :=
  if linkFirst then (link s).readReg base else s.readReg base

/-- JSRR: R7 is written first and the base register read after, so `JSRR R7` falls through (R113). -/
def execJsrr (base : Reg) (s : State) : Host.Outcome State Fault Refusal :=
  .next ((link s).setPc (jsrrTarget Params.jsrrLinkFirst base s))

end Sys2Proof.Machine
end

