-- ==== Sys2Proof/Machine/Loads.lean ====
section
/-! DEFINITION. LD, LDI, LDR and LEA (43_loads_and_lea.md). The flags are set from the value written; no base register
is modified. -/

namespace Sys2Proof.Machine

/-- LD (R120). -/
def execLd (dr : Reg) (off9 : BitVec 9) (s : State) : Host.Outcome State Fault Refusal :=
  .next (s.writeResult dr (s.readMem (pcRelative off9 s)))

/-- LDI: the pointer is read first, then the datum (R121). -/
def execLdi (dr : Reg) (off9 : BitVec 9) (s : State) : Host.Outcome State Fault Refusal :=
  .next (s.writeResult dr (s.readMem (indirect off9 s)))

/-- LDR: the address is computed from the base register's old value (R122). -/
def execLdr (dr base : Reg) (off6 : BitVec 6) (s : State) : Host.Outcome State Fault Refusal :=
  .next (s.writeResult dr (s.readMem (baseOffset base off6 s)))

/-- LEA: no memory access; sets the flags in this machine (R123). -/
def execLea (dr : Reg) (off9 : BitVec 9) (s : State) : Host.Outcome State Fault Refusal :=
  .next (s.writeResult dr (pcRelative off9 s))

end Sys2Proof.Machine
end

