-- ==== Sys2Proof/Machine/Stores.lean ====
section
/-! DEFINITION. ST, STI, STR (44_stores.md). One whole word is written; no register and no flag is. -/

namespace Sys2Proof.Machine

/-- ST (R130). -/
def execSt (sr : Reg) (off9 : BitVec 9) (s : State) : Host.Outcome State Fault Refusal :=
  .next (s.writeMem (pcRelative off9 s) (s.readReg sr))

/-- STI: the pointer is read first, then the word is written at it (R131). -/
def execSti (sr : Reg) (off9 : BitVec 9) (s : State) : Host.Outcome State Fault Refusal :=
  .next (s.writeMem (indirect off9 s) (s.readReg sr))

/-- STR (R132). -/
def execStr (sr base : Reg) (off6 : BitVec 6) (s : State) : Host.Outcome State Fault Refusal :=
  .next (s.writeMem (baseOffset base off6 s) (s.readReg sr))

end Sys2Proof.Machine
end

