-- ==== Sys2Proof/Machine/Trap.lean ====
section
/-! DEFINITION. TRAP (45_trap.md) and the two invalid opcodes (60_exceptions.md). TRAP is an ordinary instruction: a
jump through the table with R7 as link, no change of mode, flag or stack (R157). -/

namespace Sys2Proof.Machine

/-- TRAP (R140). No vector has a built-in effect (R141). -/
def execTrap (vect8 : BitVec 8) (s : State) : Host.Outcome State Fault Refusal :=
  .next ((link s).setPc (s.readMem (trapEntry vect8)))

/-- Opcode 0x8: `InvalidOpcode(0x8)`; there is no RTI (R68, R150). -/
def execInvalid8 (s : State) : Host.Outcome State Fault Refusal := raiseInvalidOpcode 0x8 s

/-- Opcode 0xD: `InvalidOpcode(0xD)` (R68, R150). -/
def execInvalidD (s : State) : Host.Outcome State Fault Refusal := raiseInvalidOpcode 0xD s

end Sys2Proof.Machine
end

