-- ==== Sys2Proof/Machine/Step.lean ====
section
/-! DEFINITION. One fetch-decode-execute cycle (R80, R84). -/

namespace Sys2Proof.Machine

/-- One cycle: fetch, decode the word fetched, execute (R84). -/
def step (s : State) : Host.Outcome State Fault Refusal :=
  exec (decode (fetch s).ir) (fetch s)

/-- The state with the word whose low `nbits` bits are those of `w` stored where the next cycle fetches: at `pc`. -/
def State.withFetchWord (s : State) (nbits w : Nat) : State :=
  s.writeMem s.pc (BitVec.ofNat 16 (w % 2 ^ nbits))

end Sys2Proof.Machine
end

