-- ==== Sys2Proof/Machine/Accesses.lean ====
section
/-! DEFINITION. The memory accesses of one cycle, in order (20_memory.md R52, R57). The step itself does not consult
this list; the claims say that memory changes exactly as the list says and that the blocks of Machine/Fsm.lean make
exactly these accesses. -/

namespace Sys2Proof.Machine

/-- One access at the memory port: a whole word read or written (R48, R93). -/
inductive Access where
  | read (a : Word)
  | write (a v : Word)
deriving DecidableEq, Repr

/-- Is the access a read? -/
def Access.isRead : Access → Bool
  | .read _ => true
  | .write _ _ => false

/-- Memory after one access. -/
def Access.applyTo (m : Memory) : Access → Memory
  | .read _ => m
  | .write a v => m.store a.toNat v

/-- The accesses of an instruction after its fetch, in the state the fetch leaves (R52). -/
def dataAccesses (i : Instr) (s : State) : List Access :=
  match i with
  | .ld _ off9 => [.read (pcRelative off9 s)]
  | .ldr _ base off6 => [.read (baseOffset base off6 s)]
  | .ldi _ off9 => [.read (pcRelative off9 s), .read (indirect off9 s)]
  | .st sr off9 => [.write (pcRelative off9 s) (s.readReg sr)]
  | .str sr base off6 => [.write (baseOffset base off6 s) (s.readReg sr)]
  | .sti sr off9 => [.read (pcRelative off9 s), .write (indirect off9 s) (s.readReg sr)]
  | .trap vect8 => [.read (trapEntry vect8)]
  | .addReg _ _ _ | .addImm _ _ _ | .andReg _ _ _ | .andImm _ _ _ | .not _ _ | .lea _ _ | .br _ _ _ _ | .jmp _
  | .jsr _ | .jsrr _ | .invalid8 | .invalidD => []

/-- All accesses of the cycle that starts in a state: first the fetch read at PC (R52). -/
def cycleAccesses (s : State) : List Access :=
  .read s.pc :: dataAccesses (decode (fetch s).ir) (fetch s)

end Sys2Proof.Machine
end

