-- ==== Sys2Proof/Machine/Blocks.lean ====
section
/-! DEFINITION. The blocks of the core as hardware (40_instruction_cycle.md R91 to R97): the decoder's outputs, the
datapath, the next-PC logic and the register file's write ports, and the control table that ties them to the forms.
They are described from the wires of R91 to R97, apart from the meanings of the instructions; the claims say that
together they do what the meanings do. -/

namespace Sys2Proof.Machine

/-- The outputs of `instruction_decoder` (R92). -/
structure DecoderOut where
  op : BitVec 4
  invalid : Bool
  form : Form
  dr : Reg
  sr1 : Reg
  sr2 : Reg
  immMode : Bool
  jsrMode : Bool
  nBit : Bool
  zBit : Bool
  pBit : Bool
  imm5Sx : Word
  off6Sx : Word
  off9Sx : Word
  off11Sx : Word
  vectZx : Word
deriving DecidableEq, Repr

/-- `instruction_decoder`: a function of IR alone (R92). -/
def instructionDecoder (ir : Word) : DecoderOut :=
  { op := bitField ir 12 4
    invalid := bitField ir 12 4 == 0x8#4 || bitField ir 12 4 == 0xD#4
    form := (decode ir).form
    dr := regField ir 9
    sr1 := regField ir 6
    sr2 := regField ir 0
    immMode := bitAt ir 5
    jsrMode := bitAt ir 11
    nBit := bitAt ir 11
    zBit := bitAt ir 10
    pBit := bitAt ir 9
    imm5Sx := sext (bitField ir 0 5)
    off6Sx := sext (bitField ir 0 6)
    off9Sx := sext (bitField ir 0 9)
    off11Sx := sext (bitField ir 0 11)
    vectZx := zext (bitField ir 0 8) }

/-- The ALU's operations (R94 a). -/
inductive AluOp where
  | add | and | not
deriving DecidableEq, Repr

/-- The base of the address adder (R94 b). -/
inductive EaBase where
  | pc | reg
deriving DecidableEq, Repr

/-- The offset of the address adder (R94 b). -/
inductive EaOff where
  | off6 | off9 | off11
deriving DecidableEq, Repr

/-- The write-back multiplexer to the register file (R94 c). `link` writes `pc_q` to R7. -/
inductive RegSource where
  | alu | ea | rdata | link
deriving DecidableEq, Repr

/-- What an instruction writes to PC after the fetch (R95). -/
inductive PcSource where
  | keep | eaIfCond | ea | base | baseAfterLink | rdata
deriving DecidableEq, Repr

/-- The first data access of an instruction (R93, R97). -/
inductive FirstAccess where
  | none | readEa | writeEa | readVector
deriving DecidableEq, Repr

/-- The second data access, at the word the first one read (R93, R97). -/
inductive SecondAccess where
  | none | readPtr | writePtr
deriving DecidableEq, Repr

/-- A row of the control table (R97). -/
structure Control where
  alu : Option AluOp
  ea : Option (EaBase × EaOff)
  regWrite : Option RegSource
  setsFlags : Bool
  pc : PcSource
  first : FirstAccess
  second : SecondAccess
deriving DecidableEq, Repr

/-- The row of an operate instruction. -/
def operateRow (op : AluOp) : Control :=
  { alu := some op, ea := none, regWrite := some .alu, setsFlags := true, pc := .keep, first := .none, second := .none }

/-- The control table, row for row (R97). -/
def controlRow : Form → Control
  | .addReg => operateRow .add
  | .addImm => operateRow .add
  | .andReg => operateRow .and
  | .andImm => operateRow .and
  | .not => operateRow .not
  | .br => ⟨none, some (.pc, .off9), none, false, .eaIfCond, .none, .none⟩
  | .jmp => ⟨none, none, none, false, .base, .none, .none⟩
  | .jsr => ⟨none, some (.pc, .off11), some .link, false, .ea, .none, .none⟩
  | .jsrr => ⟨none, none, some .link, false, .baseAfterLink, .none, .none⟩
  | .ld => ⟨none, some (.pc, .off9), some .rdata, true, .keep, .readEa, .none⟩
  | .ldi => ⟨none, some (.pc, .off9), some .rdata, true, .keep, .readEa, .readPtr⟩
  | .ldr => ⟨none, some (.reg, .off6), some .rdata, true, .keep, .readEa, .none⟩
  | .lea => ⟨none, some (.pc, .off9), some .ea, true, .keep, .none, .none⟩
  | .st => ⟨none, some (.pc, .off9), none, false, .keep, .writeEa, .none⟩
  | .sti => ⟨none, some (.pc, .off9), none, false, .keep, .readEa, .writePtr⟩
  | .str => ⟨none, some (.reg, .off6), none, false, .keep, .writeEa, .none⟩
  | .trap => ⟨none, none, some .link, false, .rdata, .readVector, .none⟩
  | .invalid8 => ⟨none, none, none, false, .keep, .none, .none⟩
  | .invalidD => ⟨none, none, none, false, .keep, .none, .none⟩

/-- `ra_data`: the read port addressed by `ir[8:6]`, serving SR1, NOT's SR and BaseR (R91, R92). -/
def raData (s : State) : Word := s.readReg (instructionDecoder s.ir).sr1

/-- Does the form write memory? -/
def Control.writesMem (c : Control) : Bool := c.first = .writeEa || c.second = .writePtr

/-- `rb_idx`: `ir[2:0]`, SR2 (R92, R94 a), and for ST, STI, STR `ir[11:9]`, the register stored. DESIGN CHOICE: the spec
does not say which of the two read ports carries SR of a store (R91, R93); the model takes this one, the other carrying
STR's base register (log entry 20). -/
def rbIdx (s : State) : Reg :=
  if (controlRow (instructionDecoder s.ir).form).writesMem then (instructionDecoder s.ir).dr
  else (instructionDecoder s.ir).sr2

/-- `rb_data`: the second read port (R91). -/
def rbData (s : State) : Word := s.readReg (rbIdx s)

/-- `mem_wdata`: `x[SR]` with `SR = ir[11:9]` (R93), off the second read port (log entry 20). -/
def memWdata (s : State) : Word := rbData s

/-- The ALU's second input: the immediate or SR2, by the mode bit (R94 a). -/
def aluB (s : State) : Word :=
  if (instructionDecoder s.ir).immMode then (instructionDecoder s.ir).imm5Sx else rbData s

/-- `alu_y` (R94 a). Where the form does not use the ALU its output is not used either. -/
def aluY (s : State) : Option AluOp → Word
  | some .add => raData s + aluB s
  | some .and => raData s &&& aluB s
  | some .not => ~~~ raData s
  | none => 0

/-- The base input of the address adder (R94 b). -/
def eaBase (s : State) : EaBase → Word
  | .pc => s.pc
  | .reg => raData s

/-- The offset input of the address adder (R94 b). -/
def eaOff (s : State) : EaOff → Word
  | .off6 => (instructionDecoder s.ir).off6Sx
  | .off9 => (instructionDecoder s.ir).off9Sx
  | .off11 => (instructionDecoder s.ir).off11Sx

/-- `ea`, the address adder's output (R94 b). Where the form does not use it nothing reads it. -/
def eaOut (s : State) : Option (EaBase × EaOff) → Word
  | some (b, o) => eaBase s b + eaOff s o
  | none => 0

/-- The execute half of `pc_next_logic`: `pc_d` if `pc_we` (R95). JSRR with BaseR = 7 takes the link value `pc_q` (C10),
under `JSRR_LINK_FIRST`. TRAP's write is made in MEM1. -/
def pcNextExec (s : State) (c : Control) : Option Word :=
  match c.pc with
  | .keep => none
  | .eaIfCond =>
    if condMet (instructionDecoder s.ir).nBit (instructionDecoder s.ir).zBit (instructionDecoder s.ir).pBit s.cc
    then some (eaOut s c.ea) else none
  | .ea => some (eaOut s c.ea)
  | .base => some (raData s)
  | .baseAfterLink =>
    if Params.jsrrLinkFirst && (instructionDecoder s.ir).sr1 == Params.linkReg then some s.pc else some (raData s)
  | .rdata => none

/-- The write ports of `register_file_16x16`: each an enable and its data (R91). -/
structure RegFileIn where
  rw : Option (Reg × Word)
  pc : Option Word
  ir : Option Word
  cc : Option Flags
deriving DecidableEq, Repr

/-- No port enabled. -/
def RegFileIn.idle : RegFileIn := { rw := none, pc := none, ir := none, cc := none }

/-- `register_file_16x16` at the end of a phase: every enabled port written at once; reads in the phase have seen the
old values (R91). -/
def registerFileNext (s : State) (i : RegFileIn) : State :=
  { regs := match i.rw with
      | some (r, v) => s.regs.set r v
      | none => s.regs
    pc := i.pc.getD s.pc
    ir := i.ir.getD s.ir
    cc := i.cc.getD s.cc
    mem := s.mem }

end Sys2Proof.Machine
end

