-- ==== Sys2Proof/WellFormed.lean ====
section
/-! DEFINITION. What is checked and refused: an instruction that is none of the seventeen valid forms, and a host
transfer that runs past the top of memory. Every operand field already has exactly the width the encoding gives it
(R62 to R66), so no operand of a valid form can be ill-formed (R21, R153). -/

namespace Sys2Proof

/-- One of the seventeen valid instruction forms (R71). The two invalid opcodes are the only illegal encodings (R68). -/
def Instr.wellFormed (i : Instr) : Bool :=
  match i.form with
  | .addReg | .addImm | .andReg | .andImm | .not | .br | .jmp | .jsr | .jsrr | .ld | .ldi | .ldr | .lea | .st | .sti
  | .str | .trap => true
  | .invalid8 | .invalidD => false

/-- A host transfer of `len` words from `start` is admitted only if it fits: `start + len <= 65536` (R56, D17, D18). -/
def transferFits (start : Word) (len : Nat) : Bool :=
  decide (start.toNat + len ≤ Config.memWords)

end Sys2Proof
end

