-- ==== Sys2Proof/Machine/HostPort.lean ====
section
/-! DEFINITION. The host port (R96, R163, R170 to R177): what the host can do to the machine between runs. That
it can do so in phase IDLE only is said in Machine/Fsm.lean, where there are phases. -/

namespace Sys2Proof.Machine

/-- Reset: every piece of state to its reset value, whatever it was (R170, R171). -/
def hostReset (_ : State) : State := State.reset

/-- Words written to consecutive addresses from `start` on, in order (R174). -/
def writeWords (s : State) (start : Nat) : List Word → State
  | [] => s
  | w :: ws => writeWords (s.writeMem (BitVec.ofNat 16 start) w) (start + 1) ws

/-- `load_program(words, start)`: the words into memory, then PC to `start`, nothing else; refused if it does not fit
(R174, R56). -/
def loadProgram (s : State) (words : List Word) (start : Word := Params.defaultOrigin) :
    Host.Outcome State Fault Refusal :=
  if transferFits start words.length then .next ((writeWords s start.toNat words).setPc start)
  else .refused (.transferDoesNotFit start words.length)

/-- `run(steps)` with a budget. `next s`: the run is `Completed` in state s. `fault (invalidOpcode op s)`: it is
`Aborted` by the error in state s (R85, R86). -/
def run : Nat → State → Host.Outcome State Fault Refusal
  | 0, s => .next s
  | k + 1, s =>
    match step s with
    | .next t => run k t
    | .fault f => .fault f
    | .refused r => .refused r

/-- How a run ends, for a budget or, with `none`, unbounded: a bounded run has exactly one end; an unbounded run ends
only by the error, and otherwise has no end (R85, R87). -/
def RunEnds (budget : Option Nat) (s : State) (o : Host.Outcome State Fault Refusal) : Prop :=
  match budget with
  | some n => run n s = o
  | none => ∃ n op t, run n s = .fault (.invalidOpcode op t) ∧ o = .fault (.invalidOpcode op t)

/-- The offending word of an aborted run: IR of the state it leaves (R86). -/
def offendingWord (after : State) : Word := after.ir

/-- The address of the offending word: one before PC, modulo 65536 (R86, R151). -/
def offendingAddress (after : State) : Word := after.pc - 1

/-- `peek_registers()`: R0..R7 by name (R163, D23). -/
def peekRegisters (s : State) : List (String × Word) :=
  [("R0", s.readReg 0), ("R1", s.readReg 1), ("R2", s.readReg 2), ("R3", s.readReg 3),
   ("R4", s.readReg 4), ("R5", s.readReg 5), ("R6", s.readReg 6), ("R7", s.readReg 7)]

/-- `peek_memory(address, length)`: the words from `address` on; refused if the window does not fit (R163, R56, D18). -/
def peekMemory (s : State) (address : Word) (length : Nat) : Host.Outcome (List Word) Fault Refusal :=
  if transferFits address length then
    .next ((List.range length).map (fun i => s.readMem (address + BitVec.ofNat 16 i)))
  else .refused (.transferDoesNotFit address length)

/-- `peek_cc()`: the three flag values (R163). -/
def peekCc (s : State) : Flags := s.cc

/-- `peek_pc()` (R163). -/
def peekPc (s : State) : Word := s.pc

/-- `peek_ir()` (R163). -/
def peekIr (s : State) : Word := s.ir

end Sys2Proof.Machine
end

