-- ==== Sys2Proof/Machine/Fsm.lean ====
section
/-! DEFINITION. `fetch_execute_fsm` and the top level `lc3_control_unit`: the phases of a cycle (R90), the memory port
(R93) and the run (R85, R96), over the blocks of Machine/Blocks.lean. A phase is an ordering device, not a clock period
(R90, D11). State holds no phase: between cycles there is none to observe (R31, R88; log entry 6). -/

namespace Sys2Proof.Machine

/-- The phases of R90. -/
inductive Phase where
  | idle | fetch | decode | exec | mem1 | mem2 | done | error
deriving DecidableEq, Repr

/-- What the host port shows of the last run: `run_done`, `run_aborted`, `err_kind`, `err_opcode` (R96; how long it stands:
log entry 19). -/
inductive Report where
  | none                          -- no run has ended since the last one was started
  | completed                     -- `run_done`
  | aborted (opcode : BitVec 4)   -- `run_aborted`, `InvalidOpcode`, `err_opcode`
deriving DecidableEq, Repr

/-- The core with its sequencer: the architectural state, the phase, the word captured from the previous phase's
read (R93), the step budget (`none`: unbounded, R85) and the report to the host. -/
structure Fsm where
  core : State
  phase : Phase
  captured : Word
  budget : Option Nat
  report : Report
deriving DecidableEq, Repr

/-- After reset: IDLE, no run in progress (R170). DESIGN CHOICE: the spec gives the step budget, the report to the host and
the captured word no reset value (R33: not state); the model takes budget 0, no report and 0x0000 (log entries 6, 18). -/
def Fsm.reset : Fsm :=
  { core := State.reset, phase := .idle, captured := 0, budget := some 0, report := .none }

/-- The control row of the instruction in IR. -/
def Fsm.row (m : Fsm) : Control := controlRow (instructionDecoder m.core.ir).form

/-- The memory port: at most one access per phase (R93). -/
def Fsm.memPort (m : Fsm) : Option Access :=
  match m.phase with
  | .fetch => some (.read m.core.pc)
  | .mem1 =>
    match m.row.first with
    | .none => none
    | .readEa => some (.read (eaOut m.core m.row.ea))
    | .writeEa => some (.write (eaOut m.core m.row.ea) (memWdata m.core))
    | .readVector => some (.read (instructionDecoder m.core.ir).vectZx)
  | .mem2 =>
    match m.row.second with
    | .none => none
    | .readPtr => some (.read m.captured)
    | .writePtr => some (.write m.captured (memWdata m.core))
  | .idle | .decode | .exec | .done | .error => none

/-- `mem_rdata`: the word read in this phase; nothing uses it in a phase that reads none. -/
def Fsm.rdata (m : Fsm) : Word :=
  match m.memPort with
  | some (.read a) => m.core.readMem a
  | some (.write _ _) => 0
  | none => 0

/-- The register write of a value by a flag-setting form, with its flags (R94 c, d). -/
def Fsm.writeDr (m : Fsm) (v : Word) : RegFileIn :=
  { RegFileIn.idle with
    rw := some ((instructionDecoder m.core.ir).dr, v)
    cc := if m.row.setsFlags then some (setcc v) else none }

/-- The write ports of the register file in each phase (R90). -/
def Fsm.regFileIn (m : Fsm) : RegFileIn :=
  match m.phase with
  | .fetch => { RegFileIn.idle with ir := some m.rdata, pc := some (m.core.pc + 1) }
  | .exec =>
    match m.row.regWrite with
    | some .alu => { m.writeDr (aluY m.core m.row.alu) with pc := pcNextExec m.core m.row }
    | some .ea => { m.writeDr (eaOut m.core m.row.ea) with pc := pcNextExec m.core m.row }
    | some .link =>
      { RegFileIn.idle with rw := some (Params.linkReg, m.core.pc), pc := pcNextExec m.core m.row }
    | some .rdata => { RegFileIn.idle with pc := pcNextExec m.core m.row }
    | none => { RegFileIn.idle with pc := pcNextExec m.core m.row }
  | .mem1 =>
    if m.row.pc = .rdata then { RegFileIn.idle with pc := some m.rdata }
    else if m.row.second = .none ∧ m.row.regWrite = some .rdata then m.writeDr m.rdata
    else RegFileIn.idle
  | .mem2 => if m.row.regWrite = some .rdata then m.writeDr m.rdata else RegFileIn.idle
  | .idle | .decode | .done | .error => RegFileIn.idle

/-- The budget after a completed cycle: one less if bounded (R85, R90). -/
def Fsm.budgetAfter (m : Fsm) : Option Nat := m.budget.map (fun n => n - 1)

/-- The phase that follows (R90). -/
def Fsm.nextPhase (m : Fsm) : Phase :=
  match m.phase with
  | .idle => .idle
  | .fetch => .decode
  | .decode => if (instructionDecoder m.core.ir).invalid then .error else .exec
  | .exec => if m.row.first = .none then .done else .mem1
  | .mem1 => if m.row.second = .none then .done else .mem2
  | .mem2 => .done
  | .done => if m.budgetAfter = some 0 then .idle else .fetch
  | .error => .idle

/-- The report that follows: set when a run ends (R86, R90). -/
def Fsm.nextReport (m : Fsm) : Report :=
  match m.phase with
  | .done => if m.budgetAfter = some 0 then .completed else m.report
  | .error => .aborted (instructionDecoder m.core.ir).op
  | .idle | .fetch | .decode | .exec | .mem1 | .mem2 => m.report

/-- The core's memory after the access of a phase. -/
def Fsm.memNext (m : Fsm) : Memory :=
  match m.memPort with
  | some a => a.applyTo m.core.mem
  | none => m.core.mem

/-- One phase: every block reads the values at its start, and the writes take effect at its end (R90, R91). -/
def Fsm.tick (m : Fsm) : Fsm :=
  { core := { registerFileNext m.core m.regFileIn with mem := m.memNext }
    phase := m.nextPhase
    captured := if m.phase = .mem1 then m.rdata else m.captured
    budget := if m.phase = .done then m.budgetAfter else m.budget
    report := m.nextReport }

/-- A number of phases, one after another. -/
def Fsm.ticks : Nat → Fsm → Fsm
  | 0, m => m
  | k + 1, m => Fsm.ticks k m.tick

/-- The accesses made in a number of phases, in order. -/
def Fsm.accesses : Nat → Fsm → List Access
  | 0, _ => []
  | k + 1, m => m.memPort.toList ++ Fsm.accesses k m.tick

/-- How many phases a cycle takes from FETCH until DONE or ERROR is entered (R90). -/
def Fsm.cyclePhases (f : Form) : Nat :=
  match f with
  | .invalid8 | .invalidD => 2
  | .addReg | .addImm | .andReg | .andImm | .not | .lea | .br | .jmp | .jsr | .jsrr => 3
  | .ld | .ldr | .st | .str | .trap => 4
  | .ldi | .sti => 5

/-- What a run's start does in IDLE: a budget of 0 executes nothing and completes at once (R85, R90). DESIGN CHOICE: the
report of the last run stands until this clears it; the spec says only "at the end of a run" (R96; log entry 19). -/
def Fsm.startRun (m : Fsm) (budget : Option Nat) : Fsm :=
  if budget = some 0 then { m with budget := some 0, report := .completed }
  else { m with phase := .fetch, budget := budget, report := .none }

/-! ## The host port (R96): every operation is usable only in IDLE. -/

/-- A request of the host: carried out in IDLE, refused in any other phase (R96, R177, D19). -/
def Fsm.request {α : Type} (m : Fsm) (o : Host.Outcome α Fault Refusal) : Host.Outcome α Fault Refusal :=
  if m.phase = .idle then o else .refused .hostPortBusy

/-- `rst`: everything to its reset value (R91, R170). DESIGN CHOICE: a reset during a run, which R177 and D19 leave
undescribed and not modelled, is refused by name (log entry 8). -/
def Fsm.rst (m : Fsm) : Host.Outcome Fsm Fault Refusal :=
  m.request (.next { Fsm.reset with core := hostReset m.core })

/-- `load_program(words, start)`, refused also if it does not fit (R174, R56). -/
def Fsm.load (m : Fsm) (words : List Word) (start : Word := Params.defaultOrigin) : Host.Outcome Fsm Fault Refusal :=
  m.request <|
    match loadProgram m.core words start with
    | .next t => .next { m with core := t }
    | .fault f => .fault f
    | .refused r => .refused r

/-- `run(steps)`: the request that starts a run (R85, R175). -/
def Fsm.requestRun (m : Fsm) (budget : Option Nat) : Host.Outcome Fsm Fault Refusal :=
  m.request (.next (m.startRun budget))

/-- `peek_registers()` (R163). -/
def Fsm.peekRegisters (m : Fsm) : Host.Outcome (List (String × Word)) Fault Refusal :=
  m.request (.next (Machine.peekRegisters m.core))

/-- `peek_memory(address, length)`, refused also if the window does not fit (R163, R56). -/
def Fsm.peekMemory (m : Fsm) (address : Word) (length : Nat) : Host.Outcome (List Word) Fault Refusal :=
  m.request (Machine.peekMemory m.core address length)

/-- `peek_cc()` (R163). -/
def Fsm.peekCc (m : Fsm) : Host.Outcome Flags Fault Refusal := m.request (.next (Machine.peekCc m.core))

/-- `peek_pc()` (R163). -/
def Fsm.peekPc (m : Fsm) : Host.Outcome Word Fault Refusal := m.request (.next (Machine.peekPc m.core))

/-- `peek_ir()` (R163). -/
def Fsm.peekIr (m : Fsm) : Host.Outcome Word Fault Refusal := m.request (.next (Machine.peekIr m.core))

end Sys2Proof.Machine
end

