-- ==== Sys2Proof/Safety.lean ====
section
/-! DEFINITION. The terms the claims use: the invariants of the state, the spec's integer readings of fields and flags,
what an instruction is allowed to read and write, and the frames. -/

namespace Sys2Proof.Safety

open Sys2Proof.Machine

/-- How many flags are set. -/
def flagCount (c : Flags) : Nat := c.n.toNat + c.z.toNat + c.p.toNat

/-- The invariant of R36, with memory's canonical form. -/
def StateInv (s : State) : Prop := s.mem.wf = true ∧ flagCount s.cc ≤ 1

/-- Exactly one flag is set: what holds from the first flag-setting instruction on (R26, C6). -/
def OneHot (s : State) : Prop := flagCount s.cc = 1

/-- `sext_N(f)` as R9 gives it over the integers: `f` below 2^(N-1), else `f - 2^N` modulo 65536. -/
def sextNat (n f : Nat) : Nat := if f < 2 ^ (n - 1) then f else f + 65536 - 2 ^ n

/-- The field of `n` bits of a word whose lowest bit is bit `lo`, as the unsigned integer R7 makes of it. -/
def fieldNat (w : Word) (lo n : Nat) : Nat := w.toNat / 2 ^ lo % 2 ^ n

/-- The register a 3-bit field names. -/
def regAt (w : Word) (lo : Nat) : Reg := Fin.ofNat 8 (fieldNat w lo 3)

/-- A field as a bit vector of its own width. -/
def bitsAt (w : Word) (lo n : Nat) : BitVec n := BitVec.ofNat n (fieldNat w lo n)

/-- One bit of a word, by division. -/
def flagAt (w : Word) (k : Nat) : Bool := decide (fieldNat w k 1 = 1)

/-- The flags of a 16-bit result, by the ranges of R106: N for 0x8000..0xFFFF, Z for 0, P for 0x0001..0x7FFF. -/
def FlagsOf (c : Flags) (v : Nat) : Prop :=
  (c.n = true ↔ 32768 ≤ v) ∧ (c.z = true ↔ v = 0) ∧ (c.p = true ↔ 0 < v ∧ v < 32768)

/-- Every register but those listed is unchanged. -/
def RegsSameBut (ds : List Reg) (s t : State) : Prop := ∀ r, r ∉ ds → t.readReg r = s.readReg r

/-- Every word of memory is unchanged. -/
def MemSame (s t : State) : Prop := ∀ a, t.readMem a = s.readMem a

/-- Every word of memory but the one at `a` is unchanged, and that one holds `v`. -/
def MemWrote (a v : Word) (s t : State) : Prop :=
  t.readMem a = v ∧ ∀ b, b ≠ a → t.readMem b = s.readMem b

/-- The effect common to the flag-setting instructions (R28): `v` in `x[DR]`, the flags of `v`, nothing else changed. -/
def ResultIn (dr : Reg) (v : Nat) (s t : State) : Prop :=
  (t.readReg dr).toNat = v ∧ FlagsOf t.cc v ∧ RegsSameBut [dr] s t ∧ MemSame s t ∧ t.pc = s.pc ∧ t.ir = s.ir

/-- The effect common to the stores: `v` at `a`, nothing else changed (R130 to R132). -/
def StoredAt (a v : Word) (s t : State) : Prop :=
  MemWrote a v s t ∧ RegsSameBut [] s t ∧ t.cc = s.cc ∧ t.pc = s.pc ∧ t.ir = s.ir

/-- The effect common to the control transfers: PC becomes `target`, the registers listed may change, nothing else. -/
def WentTo (target : Word) (ds : List Reg) (s t : State) : Prop :=
  t.pc = target ∧ RegsSameBut ds s t ∧ MemSame s t ∧ t.cc = s.cc ∧ t.ir = s.ir

/-- The seven flag-setting instructions (R28), in their nine forms. -/
def setsFlags : Form → Bool
  | .addReg | .addImm | .andReg | .andImm | .not | .ld | .ldi | .ldr | .lea => true
  | .br | .jmp | .jsr | .jsrr | .st | .sti | .str | .trap | .invalid8 | .invalidD => false

/-- The instructions whose routine writes PC (R24 b, R83). -/
def writesPc : Form → Bool
  | .br | .jmp | .jsr | .jsrr | .trap => true
  | .addReg | .addImm | .andReg | .andImm | .not | .ld | .ldi | .ldr | .lea | .st | .sti | .str | .invalid8
  | .invalidD => false

/-- The instructions that write memory (R32, R42). -/
def writesMem : Form → Bool
  | .st | .sti | .str => true
  | .addReg | .addImm | .andReg | .andImm | .not | .br | .jmp | .jsr | .jsrr | .ld | .ldi | .ldr | .lea | .trap
  | .invalid8 | .invalidD => false

/-- The general registers an instruction writes (R22). -/
def regsWritten : Instr → List Reg
  | .addReg dr _ _ | .addImm dr _ _ | .andReg dr _ _ | .andImm dr _ _ | .not dr _ => [dr]
  | .ld dr _ | .ldi dr _ | .ldr dr _ _ | .lea dr _ => [dr]
  | .jsr _ | .jsrr _ | .trap _ => [7]
  | .st _ _ | .sti _ _ | .str _ _ _ | .br _ _ _ _ | .jmp _ | .invalid8 | .invalidD => []

/-- The general registers an instruction reads (R22). -/
def regsRead : Instr → List Reg
  | .addReg _ sr1 sr2 | .andReg _ sr1 sr2 => [sr1, sr2]
  | .addImm _ sr1 _ | .andImm _ sr1 _ => [sr1]
  | .not _ sr => [sr]
  | .ldr _ base _ => [base]
  | .st sr _ | .sti sr _ => [sr]
  | .str sr base _ => [sr, base]
  | .jmp base => [base]
  | .jsrr base => [base]
  | .ld _ _ | .ldi _ _ | .lea _ _ | .br _ _ _ _ | .jsr _ | .trap _ | .invalid8 | .invalidD => []

/-- PC after the cycle of an instruction fetched from `s.pc`, by the table of R24: `pcInst` is the address fetched
from, `x` the registers before the cycle. -/
def pcAfterCycle (i : Instr) (s : State) : Word :=
  match i with
  | .br n z p off9 =>
    if (n && s.cc.n) || (z && s.cc.z) || (p && s.cc.p) then BitVec.ofNat 16 (s.pc.toNat + 1 + sextNat 9 off9.toNat)
    else BitVec.ofNat 16 (s.pc.toNat + 1)
  | .jmp base => s.readReg base
  | .jsr off11 => BitVec.ofNat 16 (s.pc.toNat + 1 + sextNat 11 off11.toNat)
  | .jsrr base => if base = 7 then BitVec.ofNat 16 (s.pc.toNat + 1) else s.readReg base
  | .trap vect8 => s.readMem (BitVec.ofNat 16 vect8.toNat)
  | .addReg _ _ _ | .addImm _ _ _ | .andReg _ _ _ | .andImm _ _ _ | .not _ _ | .ld _ _ | .ldi _ _ | .ldr _ _ _
  | .lea _ _ | .st _ _ | .sti _ _ | .str _ _ _ | .invalid8 | .invalidD => BitVec.ofNat 16 (s.pc.toNat + 1)

/-- The state an outcome leaves, whether the cycle completed or was aborted (R84); none for a refusal. -/
def stateAfter : Host.Outcome State Fault Refusal → Option State
  | .next t => some t
  | .fault (.invalidOpcode _ t) => some t
  | .refused _ => none

end Sys2Proof.Safety
end

