-- ==== Sys2Proof/Certificates/Slice0/Obligations.lean ====
section
/-! DEFINITION. The statements for the provers. Each docstring names the rules of spec/ it comes from. The statements
read fields by division, sums by `%` and flags by ranges, as the spec writes them, where the model uses bit vectors. -/

open Sys2Proof Sys2Proof.Machine Sys2Proof.Safety

/-! ## Encoding -/

/-- The words of 95_test_vectors.md section 2.8, written out from the encodings of R61, and the two words it says every
model should check by themselves. -/
def Obligations.SampleWordsDecode : Prop :=
  decode 0b0000111000000001 = .br true true true 1 ∧
  decode 0b0001001001100011 = .addImm 1 1 3 ∧
  decode 0b0001011001000010 = .addReg 3 1 2 ∧
  decode 0b0010010000000101 = .ld 2 5 ∧
  decode 0b0011011000000100 = .st 3 4 ∧
  decode 0b0100100000000010 = .jsr 2 ∧
  decode 0b0100000011000000 = .jsrr 3 ∧
  decode 0b0101000001000000 = .andReg 0 1 0 ∧
  decode 0b0101010010100000 = .andImm 2 2 0 ∧
  decode 0b0110100110111110 = .ldr 4 6 0x3E ∧
  decode 0b0111001010011111 = .str 1 2 0x1F ∧
  decode 0b1000000100100011 = .invalid8 ∧
  decode 0b1001100101111111 = .not 4 5 ∧
  decode 0b1010001000000011 = .ldi 1 3 ∧
  decode 0b1011101111111100 = .sti 5 0x1FC ∧
  decode 0b1100000111000000 = .jmp 7 ∧
  decode 0b1101000000000000 = .invalidD ∧
  decode 0b1110000111111110 = .lea 0 0x1FE ∧
  decode 0b1111000000100101 = .trap 0x25 ∧
  decode 0b0000000000000000 = .br false false false 0 ∧
  decode 0b1111111111111111 = .trap 0xFF

/-- Decode undoes encode, for every instruction and every operand value (R72, R77). -/
def Obligations.DecodeInvertsEncode : Prop := ∀ i : Instr, decode (encode i) = i

/-- Encode undoes decode up to the ignored bits, which it writes as R75 says (R69, R75, R77). -/
def Obligations.EncodeOfDecodeIsTheCanonicalWord : Prop :=
  ∀ w : Word, encode (decode w) = (w &&& ~~~ (decode w).form.ignored) ||| (decode w).form.ignoredFill

/-- The formulas of R77, as sums: the fields of a form do not overlap. -/
def Obligations.EncodeFollowsTheFormulas : Prop :=
  (∀ dr sr1 sr2 : Reg, (encode (.addReg dr sr1 sr2)).toNat = 0x1000 + dr.val * 512 + sr1.val * 64 + sr2.val) ∧
  (∀ (dr sr1 : Reg) (imm5 : BitVec 5),
    (encode (.addImm dr sr1 imm5)).toNat = 0x1020 + dr.val * 512 + sr1.val * 64 + imm5.toNat) ∧
  (∀ dr sr1 sr2 : Reg, (encode (.andReg dr sr1 sr2)).toNat = 0x5000 + dr.val * 512 + sr1.val * 64 + sr2.val) ∧
  (∀ (dr sr1 : Reg) (imm5 : BitVec 5),
    (encode (.andImm dr sr1 imm5)).toNat = 0x5020 + dr.val * 512 + sr1.val * 64 + imm5.toNat) ∧
  (∀ dr sr : Reg, (encode (.not dr sr)).toNat = 0x903F + dr.val * 512 + sr.val * 64) ∧
  (∀ (n z p : Bool) (off9 : BitVec 9),
    (encode (.br n z p off9)).toNat = n.toNat * 2048 + z.toNat * 1024 + p.toNat * 512 + off9.toNat) ∧
  (∀ base : Reg, (encode (.jmp base)).toNat = 0xC000 + base.val * 64) ∧
  (∀ off11 : BitVec 11, (encode (.jsr off11)).toNat = 0x4800 + off11.toNat) ∧
  (∀ base : Reg, (encode (.jsrr base)).toNat = 0x4000 + base.val * 64) ∧
  (∀ (dr : Reg) (off9 : BitVec 9), (encode (.ld dr off9)).toNat = 0x2000 + dr.val * 512 + off9.toNat) ∧
  (∀ (dr : Reg) (off9 : BitVec 9), (encode (.ldi dr off9)).toNat = 0xA000 + dr.val * 512 + off9.toNat) ∧
  (∀ (dr : Reg) (off9 : BitVec 9), (encode (.lea dr off9)).toNat = 0xE000 + dr.val * 512 + off9.toNat) ∧
  (∀ (dr base : Reg) (off6 : BitVec 6),
    (encode (.ldr dr base off6)).toNat = 0x6000 + dr.val * 512 + base.val * 64 + off6.toNat) ∧
  (∀ (sr : Reg) (off9 : BitVec 9), (encode (.st sr off9)).toNat = 0x3000 + sr.val * 512 + off9.toNat) ∧
  (∀ (sr : Reg) (off9 : BitVec 9), (encode (.sti sr off9)).toNat = 0xB000 + sr.val * 512 + off9.toNat) ∧
  (∀ (sr base : Reg) (off6 : BitVec 6),
    (encode (.str sr base off6)).toNat = 0x7000 + sr.val * 512 + base.val * 64 + off6.toNat) ∧
  (∀ vect8 : BitVec 8, (encode (.trap vect8)).toNat = 0xF000 + vect8.toNat)

/-- The decoding algorithm of R72, case by case, the fields read by division. -/
def Obligations.DecodeReadsTheFields : Prop :=
  ∀ w : Word, decode w =
    if fieldNat w 12 4 = 0x0 then .br (flagAt w 11) (flagAt w 10) (flagAt w 9) (bitsAt w 0 9)
    else if fieldNat w 12 4 = 0x1 then
      if fieldNat w 5 1 = 0 then .addReg (regAt w 9) (regAt w 6) (regAt w 0)
      else .addImm (regAt w 9) (regAt w 6) (bitsAt w 0 5)
    else if fieldNat w 12 4 = 0x2 then .ld (regAt w 9) (bitsAt w 0 9)
    else if fieldNat w 12 4 = 0x3 then .st (regAt w 9) (bitsAt w 0 9)
    else if fieldNat w 12 4 = 0x4 then
      if fieldNat w 11 1 = 1 then .jsr (bitsAt w 0 11) else .jsrr (regAt w 6)
    else if fieldNat w 12 4 = 0x5 then
      if fieldNat w 5 1 = 0 then .andReg (regAt w 9) (regAt w 6) (regAt w 0)
      else .andImm (regAt w 9) (regAt w 6) (bitsAt w 0 5)
    else if fieldNat w 12 4 = 0x6 then .ldr (regAt w 9) (regAt w 6) (bitsAt w 0 6)
    else if fieldNat w 12 4 = 0x7 then .str (regAt w 9) (regAt w 6) (bitsAt w 0 6)
    else if fieldNat w 12 4 = 0x8 then .invalid8
    else if fieldNat w 12 4 = 0x9 then .not (regAt w 9) (regAt w 6)
    else if fieldNat w 12 4 = 0xA then .ldi (regAt w 9) (bitsAt w 0 9)
    else if fieldNat w 12 4 = 0xB then .sti (regAt w 9) (bitsAt w 0 9)
    else if fieldNat w 12 4 = 0xC then .jmp (regAt w 6)
    else if fieldNat w 12 4 = 0xD then .invalidD
    else if fieldNat w 12 4 = 0xE then .lea (regAt w 9) (bitsAt w 0 9)
    else .trap (bitsAt w 0 8)

/-- Every word lies in exactly one row of spec/opcode_table.json, by the row's mask and match, and decodes to that
row's form (R67, R68, R71). -/
def Obligations.EachWordMatchesExactlyItsRow : Prop :=
  ∀ (w : Word) (f : Form), (decode w).form = f ↔ w &&& f.mask = f.pattern

/-- The ignored bits of R69, and that they take no part in decoding or execution: two words that agree in all other
bits are the same instruction and execute alike. That no check is made on them is the spec's own decision, D5. -/
def Obligations.IgnoredBitsTakeNoPart : Prop :=
  (Form.ignored .addReg = 0x0018 ∧ Form.ignored .andReg = 0x0018 ∧ Form.ignored .not = 0x003F ∧
    Form.ignored .jmp = 0x0E3F ∧ Form.ignored .jsrr = 0x063F ∧ Form.ignored .trap = 0x0F00) ∧
  ∀ w w' : Word, w &&& ~~~ (decode w).form.ignored = w' &&& ~~~ (decode w).form.ignored →
    decode w' = decode w ∧ ∀ s, exec (decode w') s = exec (decode w) s

/-- `sext_N` of R9: the OR with the complementary high bits, the source's four masks, the equivalent subtraction, and
`zext_N`. -/
def Obligations.SignExtensionOrsTheHighBits : Prop :=
  (∀ (n : Nat) (f : BitVec n), 0 < n → n ≤ 16 →
    (f.getLsbD (n - 1) = false → (sext f).toNat = f.toNat) ∧
    (f.getLsbD (n - 1) = true → sext f = zext f ||| ((0xFFFF : Word) <<< n)) ∧
    (2 ^ (n - 1) ≤ f.toNat → (sext f).toNat = (f.toNat + 65536 - 2 ^ n) % 65536) ∧
    (zext f).toNat = f.toNat) ∧
  (0xFFFF : Word) <<< 5 = 0xFFE0 ∧ (0xFFFF : Word) <<< 6 = 0xFFC0 ∧
  (0xFFFF : Word) <<< 9 = 0xFE00 ∧ (0xFFFF : Word) <<< 11 = 0xF800

/-! ## Flags -/

/-- `setcc` of R27 and its signed reading of R106: exactly one flag, N for 0x8000..0xFFFF, Z for 0, P for
0x0001..0x7FFF. -/
def Obligations.SetccSetsExactlyTheRightFlag : Prop :=
  ∀ v : Word, FlagsOf (setcc v) v.toNat ∧ flagCount (setcc v) = 1 ∧
    ((setcc v).n = true ↔ v.toInt < 0) ∧ ((setcc v).z = true ↔ v.toInt = 0) ∧ ((setcc v).p = true ↔ 0 < v.toInt)

/-- The flag-setting forms set the flags from the value they write to their destination, every other instruction leaves
them alone (R28). -/
def Obligations.FlagsAreWrittenOnlyByTheSeven : Prop :=
  ∀ (i : Instr) (s t : State), exec i s = .next t →
    (setsFlags i.form = true → ∃ d, regsWritten i = [d] ∧ t.cc = setcc (t.readReg d)) ∧
    (setsFlags i.form = false → t.cc = s.cc)

/-- No instruction but BR reads the flags: with other flags it does the same, but for flags it does not write (R28). -/
def Obligations.FlagsAreReadOnlyByBr : Prop :=
  ∀ (i : Instr) (s t : State) (c : Flags), i.form ≠ .br → exec i s = .next t →
    exec i (s.setFlags c) = .next (if setsFlags i.form then t else t.setFlags c)

/-- The invariant of the flags: one-hot, once it holds, is kept by every completed cycle, and every flag-setting
instruction establishes it (R26, C6). -/
def Obligations.OneFlagStaysSet : Prop :=
  (∀ s t : State, OneHot s → step s = .next t → OneHot t) ∧
  (∀ (i : Instr) (s t : State), setsFlags i.form = true → exec i s = .next t → OneHot t)

/-! ## Operate instructions -/

/-- ADD, register mode (R100). -/
def Obligations.AddRegisterAddsAndSetsFlags : Prop :=
  (∀ w : Word, w &&& 0xF020 = 0x1000 → decode w = .addReg (regAt w 9) (regAt w 6) (regAt w 0)) ∧
  ∀ (dr sr1 sr2 : Reg) (s : State), ∃ t, exec (.addReg dr sr1 sr2) s = .next t ∧
    ResultIn dr (((s.readReg sr1).toNat + (s.readReg sr2).toNat) % 65536) s t

/-- ADD, immediate mode (R101). -/
def Obligations.AddImmediateAddsAndSetsFlags : Prop :=
  (∀ w : Word, w &&& 0xF020 = 0x1020 → decode w = .addImm (regAt w 9) (regAt w 6) (bitsAt w 0 5)) ∧
  ∀ (dr sr1 : Reg) (imm5 : BitVec 5) (s : State), ∃ t, exec (.addImm dr sr1 imm5) s = .next t ∧
    ResultIn dr (((s.readReg sr1).toNat + sextNat 5 imm5.toNat) % 65536) s t

/-- AND, register mode (R102). -/
def Obligations.AndRegisterMasksAndSetsFlags : Prop :=
  (∀ w : Word, w &&& 0xF020 = 0x5000 → decode w = .andReg (regAt w 9) (regAt w 6) (regAt w 0)) ∧
  ∀ (dr sr1 sr2 : Reg) (s : State), ∃ t, exec (.andReg dr sr1 sr2) s = .next t ∧
    ResultIn dr ((s.readReg sr1).toNat &&& (s.readReg sr2).toNat) s t

/-- AND, immediate mode: the immediate is sign-extended (R103). -/
def Obligations.AndImmediateMasksAndSetsFlags : Prop :=
  (∀ w : Word, w &&& 0xF020 = 0x5020 → decode w = .andImm (regAt w 9) (regAt w 6) (bitsAt w 0 5)) ∧
  ∀ (dr sr1 : Reg) (imm5 : BitVec 5) (s : State), ∃ t, exec (.andImm dr sr1 imm5) s = .next t ∧
    ResultIn dr ((s.readReg sr1).toNat &&& sextNat 5 imm5.toNat) s t

/-- NOT (R104). -/
def Obligations.NotComplementsAndSetsFlags : Prop :=
  (∀ w : Word, w &&& 0xF000 = 0x9000 → decode w = .not (regAt w 9) (regAt w 6)) ∧
  ∀ (dr sr : Reg) (s : State), ∃ t, exec (.not dr sr) s = .next t ∧
    ResultIn dr (65535 - (s.readReg sr).toNat) s t

/-- Addition is the same operation for the signed reading: the sum, wrapped into -32768..32767 (R8, R105). -/
def Obligations.AdditionAgreesWithTheSignedReading : Prop :=
  ∀ (dr sr1 sr2 : Reg) (s : State), ∃ t, exec (.addReg dr sr1 sr2) s = .next t ∧
    (t.readReg dr).toInt = ((s.readReg sr1).toInt + (s.readReg sr2).toInt).bmod 65536

/-! ## Control transfer -/

/-- BR (R110). That the target is taken modulo 65536 is the spec's own decision, D6. -/
def Obligations.BranchGoesWhenAConditionBitMeetsItsFlag : Prop :=
  (∀ w : Word, w &&& 0xF000 = 0x0000 → decode w = .br (flagAt w 11) (flagAt w 10) (flagAt w 9) (bitsAt w 0 9)) ∧
  ∀ (n z p : Bool) (off9 : BitVec 9) (s : State), ∃ t, exec (.br n z p off9) s = .next t ∧
    WentTo (if (n = true ∧ s.cc.n = true) ∨ (z = true ∧ s.cc.z = true) ∨ (p = true ∧ s.cc.p = true)
      then BitVec.ofNat 16 ((s.pc.toNat + sextNat 9 off9.toNat) % 65536) else s.pc) [] s t

/-- JMP (R111). -/
def Obligations.JumpGoesToTheBaseRegister : Prop :=
  (∀ w : Word, w &&& 0xF000 = 0xC000 → decode w = .jmp (regAt w 6)) ∧
  ∀ (base : Reg) (s : State), ∃ t, exec (.jmp base) s = .next t ∧ WentTo (s.readReg base) [] s t

/-- JSR (R112). That the target is taken modulo 65536 is the spec's own decision, D6. -/
def Obligations.JsrLinksAndGoesPcRelative : Prop :=
  (∀ w : Word, w &&& 0xF800 = 0x4800 → decode w = .jsr (bitsAt w 0 11)) ∧
  ∀ (off11 : BitVec 11) (s : State), ∃ t, exec (.jsr off11) s = .next t ∧ t.readReg 7 = s.pc ∧
    WentTo (BitVec.ofNat 16 ((s.pc.toNat + sextNat 11 off11.toNat) % 65536)) [7] s t

/-- JSRR: R7 is written before the base register is read, so with BaseR = 7 it falls through (R113). That order is the
default of the open parameter `JSRR_LINK_FIRST` (D7), taken in log entry 3. -/
def Obligations.JsrrLinksThenGoesToTheBaseRegister : Prop :=
  (∀ w : Word, w &&& 0xF800 = 0x4000 → decode w = .jsrr (regAt w 6)) ∧
  ∀ (base : Reg) (s : State), ∃ t, exec (.jsrr base) s = .next t ∧ t.readReg 7 = s.pc ∧
    WentTo (t.readReg base) [7] s t ∧ (base ≠ 7 → t.pc = s.readReg base) ∧ (base = 7 → t.pc = s.pc)

/-- The parameter `JSRR_LINK_FIRST` matters for BaseR = 7 only (R113, D7). -/
def Obligations.JsrrOrderMattersOnlyForR7 : Prop :=
  ∀ (base : Reg) (s : State),
    (base ≠ 7 → jsrrTarget true base s = jsrrTarget false base s) ∧
    jsrrTarget true 7 s = s.pc ∧ jsrrTarget false 7 s = s.readReg 7

/-- A call by JSR, JSRR or TRAP leaves in R7 the address `JMP R7` returns to, in any later state that still holds it
(R114, R142). -/
def Obligations.CallsReturnThroughR7 : Prop :=
  ∀ (i : Instr) (s t u v : State), i.form = .jsr ∨ i.form = .jsrr ∨ i.form = .trap →
    exec i s = .next t → u.readReg 7 = t.readReg 7 → exec (.jmp 7) u = .next v → v.pc = s.pc

/-- BR is a no-operation while no flag is set, and with no condition bit set; with all three set it is taken whenever a
flag is set (R70, R181). -/
def Obligations.BranchBeforeAnyFlagFallsThrough : Prop :=
  (∀ (n z p : Bool) (off9 : BitVec 9) (s : State), flagCount s.cc = 0 → exec (.br n z p off9) s = .next s) ∧
  (∀ (off9 : BitVec 9) (s : State), exec (.br false false false off9) s = .next s) ∧
  (∀ (off9 : BitVec 9) (s : State), 0 < flagCount s.cc →
    exec (.br true true true off9) s = .next (s.setPc (pcRelative off9 s)))

/-! ## Loads and LEA -/

/-- LD (R120). -/
def Obligations.LoadReadsPcRelative : Prop :=
  (∀ w : Word, w &&& 0xF000 = 0x2000 → decode w = .ld (regAt w 9) (bitsAt w 0 9)) ∧
  ∀ (dr : Reg) (off9 : BitVec 9) (s : State), ∃ t, exec (.ld dr off9) s = .next t ∧
    ResultIn dr (s.readMem (BitVec.ofNat 16 ((s.pc.toNat + sextNat 9 off9.toNat) % 65536))).toNat s t

/-- LDI (R121). That the pointer is used as it stands, with no fault, is the spec's own decision, D3. -/
def Obligations.LoadIndirectReadsThroughThePointer : Prop :=
  (∀ w : Word, w &&& 0xF000 = 0xA000 → decode w = .ldi (regAt w 9) (bitsAt w 0 9)) ∧
  ∀ (dr : Reg) (off9 : BitVec 9) (s : State), ∃ t, exec (.ldi dr off9) s = .next t ∧
    ResultIn dr
      (s.readMem (s.readMem (BitVec.ofNat 16 ((s.pc.toNat + sextNat 9 off9.toNat) % 65536)))).toNat s t

/-- LDR: the address is that of the old base register, also when DR = BaseR (R122). -/
def Obligations.LoadRegisterReadsBasePlusOffset : Prop :=
  (∀ w : Word, w &&& 0xF000 = 0x6000 → decode w = .ldr (regAt w 9) (regAt w 6) (bitsAt w 0 6)) ∧
  ∀ (dr base : Reg) (off6 : BitVec 6) (s : State), ∃ t, exec (.ldr dr base off6) s = .next t ∧
    ResultIn dr
      (s.readMem (BitVec.ofNat 16 (((s.readReg base).toNat + sextNat 6 off6.toNat) % 65536))).toNat s t

/-- LEA: the address itself, no memory access, and the flags from it (R123). -/
def Obligations.LeaWritesTheAddressAndSetsFlags : Prop :=
  (∀ w : Word, w &&& 0xF000 = 0xE000 → decode w = .lea (regAt w 9) (bitsAt w 0 9)) ∧
  ∀ (dr : Reg) (off9 : BitVec 9) (s : State), dataAccesses (.lea dr off9) s = [] ∧
    ∃ t, exec (.lea dr off9) s = .next t ∧
      ResultIn dr ((s.pc.toNat + sextNat 9 off9.toNat) % 65536) s t

/-! ## Stores -/

/-- ST: one word, at the PC-relative address (R130). -/
def Obligations.StoreWritesPcRelative : Prop :=
  (∀ w : Word, w &&& 0xF000 = 0x3000 → decode w = .st (regAt w 9) (bitsAt w 0 9)) ∧
  ∀ (sr : Reg) (off9 : BitVec 9) (s : State),
    (pcRelative off9 s).toNat = (s.pc.toNat + sextNat 9 off9.toNat) % 65536 ∧
    ∃ t, exec (.st sr off9) s = .next t ∧ StoredAt (pcRelative off9 s) (s.readReg sr) s t

/-- STI: one word, at the address the pointer holds before the write (R131). That the pointer is used as it stands, with
no fault, is the spec's own decision, D3. -/
def Obligations.StoreIndirectWritesThroughThePointer : Prop :=
  (∀ w : Word, w &&& 0xF000 = 0xB000 → decode w = .sti (regAt w 9) (bitsAt w 0 9)) ∧
  ∀ (sr : Reg) (off9 : BitVec 9) (s : State),
    indirect off9 s = s.readMem (BitVec.ofNat 16 ((s.pc.toNat + sextNat 9 off9.toNat) % 65536)) ∧
    ∃ t, exec (.sti sr off9) s = .next t ∧ StoredAt (indirect off9 s) (s.readReg sr) s t

/-- STR: one word, at base plus offset (R132). -/
def Obligations.StoreRegisterWritesBasePlusOffset : Prop :=
  (∀ w : Word, w &&& 0xF000 = 0x7000 → decode w = .str (regAt w 9) (regAt w 6) (bitsAt w 0 6)) ∧
  ∀ (sr base : Reg) (off6 : BitVec 6) (s : State),
    (baseOffset base off6 s).toNat = ((s.readReg base).toNat + sextNat 6 off6.toNat) % 65536 ∧
    ∃ t, exec (.str sr base off6) s = .next t ∧ StoredAt (baseOffset base off6 s) (s.readReg sr) s t

/-! ## TRAP and the invalid opcodes -/

/-- TRAP: the return address in R7, PC from the vector's entry in the table at 0x0000..0x00FF (R140). That the vector is
zero-extended and the table starts at 0 is the spec's own decision, D8. -/
def Obligations.TrapLinksAndGoesThroughTheTable : Prop :=
  (∀ w : Word, w &&& 0xF000 = 0xF000 → decode w = .trap (bitsAt w 0 8)) ∧
  ∀ (vect8 : BitVec 8) (s : State), ∃ t, exec (.trap vect8) s = .next t ∧ t.readReg 7 = s.pc ∧
    WentTo (s.readMem (BitVec.ofNat 16 vect8.toNat)) [7] s t

/-- The two invalid opcodes stop: the error carries the opcode, and their routine changes nothing (R150). -/
def Obligations.InvalidOpcodesStop : Prop :=
  ∀ s : State, exec .invalid8 s = .fault (.invalidOpcode 0x8 s) ∧ exec .invalidD s = .fault (.invalidOpcode 0xD s)

/-- The state after `InvalidOpcode`, exactly (R151), and that the error is raised exactly for the opcodes 0x8 and 0xD,
whatever the low twelve bits (R150). -/
def Obligations.InvalidOpcodeLeavesOnlyTheFetch : Prop :=
  ∀ s : State,
    ((∃ f, step s = .fault f) ↔ fieldNat (s.readMem s.pc) 12 4 = 0x8 ∨ fieldNat (s.readMem s.pc) 12 4 = 0xD) ∧
    ∀ f, step s = .fault f → ∃ op t, f = .invalidOpcode op t ∧
      op.toNat = fieldNat (s.readMem s.pc) 12 4 ∧ t.ir = s.readMem s.pc ∧
      t.pc.toNat = (s.pc.toNat + 1) % 65536 ∧ offendingAddress t = s.pc ∧
      RegsSameBut [] s t ∧ t.cc = s.cc ∧ MemSame s t

/-! ## The cycle -/

/-- The fetch step (R81): IR and PC, nothing else, and it stands when decode then raises the error. -/
def Obligations.FetchLoadsIrAndAdvancesPc : Prop :=
  ∀ s : State, (fetch s).ir = s.readMem s.pc ∧ (fetch s).pc.toNat = (s.pc.toNat + 1) % 65536 ∧
    RegsSameBut [] s (fetch s) ∧ (fetch s).cc = s.cc ∧ MemSame s (fetch s) ∧
    ∀ op t, step s = .fault (.invalidOpcode op t) → t = fetch s

/-- A step runs the instruction the word at PC decodes to, in the state the fetch leaves (R80, R84). -/
def Obligations.StepRunsTheDecodedInstruction : Prop :=
  ∀ (s : State) (i : Instr), decode (s.readMem s.pc) = i →
    step s = exec i { s with ir := s.readMem s.pc, pc := s.pc + 1 }

/-- Every one of the seventeen valid forms completes in every state, nothing but an invalid opcode stops, and nothing
is refused (R153). -/
def Obligations.EveryValidFormCompletes : Prop :=
  (∀ (i : Instr) (s : State), i.wellFormed = true → ∃ t, exec i s = .next t) ∧
  (∀ (i : Instr) (s : State) (f : Fault), exec i s = .fault f →
    i.wellFormed = false ∧ ∃ op, f = .invalidOpcode op s ∧ (op = 0x8 ∨ op = 0xD)) ∧
  (∀ (i : Instr) (s : State) (r : Refusal), exec i s ≠ .refused r)

/-- The step is a total function with two outcomes: a next state for a valid form, and for an invalid one the error with
the state the fetch leaves (R84). -/
def Obligations.StepCompletesOrRaisesInvalidOpcode : Prop :=
  ∀ s : State,
    if (decode (s.readMem s.pc)).wellFormed then ∃ t, step s = .next t ∧ t.ir = s.readMem s.pc
    else ∃ op, step s = .fault (.invalidOpcode op (fetch s))

/-- Who writes what: an execute routine leaves alone every register it does not name, IR always, every word of memory it
does not store to, and PC, memory and the flags unless it is one of the few that write them (R22, R24, R25, R28, R32,
R42, R83). The stored word's address is the one the meaning uses: `pcRelative`, `indirect` or `baseOffset`. -/
def Obligations.ExecuteChangesOnlyWhatItsRuleNames : Prop :=
  ∀ (i : Instr) (s t : State), exec i s = .next t →
    RegsSameBut (regsWritten i) s t ∧ t.ir = s.ir ∧
    (writesPc i.form = false → t.pc = s.pc) ∧
    (∀ a, (∀ v, .write a v ∉ dataAccesses i s) → t.readMem a = s.readMem a) ∧
    (writesMem i.form = false → t.mem = s.mem) ∧
    (setsFlags i.form = false → t.cc = s.cc)

/-- An instruction reads no register but those R22 lists: with other values in the rest it does the same. -/
def Obligations.ExecuteReadsOnlyTheListedRegisters : Prop :=
  ∀ (i : Instr) (s s' t : State), s'.pc = s.pc → s'.ir = s.ir → s'.cc = s.cc → s'.mem = s.mem →
    (∀ r ∈ regsRead i, s'.readReg r = s.readReg r) → exec i s = .next t →
    ∃ t', exec i s' = .next t' ∧ t'.pc = t.pc ∧ t'.ir = t.ir ∧ t'.cc = t.cc ∧ t'.mem = t.mem ∧
      (∀ r ∈ regsWritten i, t'.readReg r = t.readReg r) ∧ RegsSameBut (regsWritten i) s' t'

/-- PC after a cycle, by the table of R24, for completed and aborted cycles. -/
def Obligations.PcAfterTheCycleIsAsTabled : Prop :=
  ∀ s t : State, stateAfter (step s) = some t → t.pc = pcAfterCycle (decode (s.readMem s.pc)) s

/-! ## Memory -/

/-- `MemWrite` then `MemRead` (R43, R44): the word written at that address, every other word as before, nothing else
touched; reading changes nothing by its type. -/
def Obligations.WrittenWordIsReadBack : Prop :=
  ∀ (s : State) (a v : Word), MemWrote a v s (s.writeMem a v) ∧ RegsSameBut [] s (s.writeMem a v) ∧
    (s.writeMem a v).pc = s.pc ∧ (s.writeMem a v).ir = s.ir ∧ (s.writeMem a v).cc = s.cc

/-- The accesses of a cycle counted, fetch included, by the table of R57. -/
def Obligations.AccessCountsAreAsTabled : Prop :=
  ∀ s : State,
    ((cycleAccesses s).countP Access.isRead, (cycleAccesses s).countP (fun x => !x.isRead)) =
      match (decode (s.readMem s.pc)).form with
      | .addReg | .addImm | .andReg | .andImm | .not | .lea | .br | .jmp | .jsr | .jsrr | .invalid8 | .invalidD => (1, 0)
      | .ld | .ldr | .trap => (2, 0)
      | .ldi => (3, 0)
      | .st | .str => (1, 1)
      | .sti => (2, 1)

/-- Memory after a cycle is memory before it with the cycle's listed writes made, and nothing else (R32, R42, R52). -/
def Obligations.MemoryChangesExactlyByTheListedWrites : Prop :=
  ∀ s t : State, stateAfter (step s) = some t → t.mem = (cycleAccesses s).foldl Access.applyTo s.mem

/-- A store is seen by the next fetch, also of the very next word, and does not change the instruction being executed
(R54, R133). -/
def Obligations.NextFetchSeesTheStore : Prop :=
  ∀ (s t : State) (a v : Word), step s = .next t → .write a v ∈ cycleAccesses s →
    t.readMem a = v ∧ (t.pc = a → (fetch t).ir = v) ∧ t.ir = s.readMem s.pc

/-! ## Reset and the invariant -/

/-- The values after reset (R33). Reset as the counterpart of construction is the spec's own decision, D1; all-zero
flags are the default of the open parameter `CC_RESET` (D2), taken in log entry 2. -/
def Obligations.ResetZeroesEverything : Prop :=
  (∀ r, State.reset.readReg r = 0) ∧ State.reset.pc = 0 ∧ State.reset.ir = 0 ∧
  State.reset.cc.n = false ∧ State.reset.cc.z = false ∧ State.reset.cc.p = false ∧
  ∀ a, State.reset.readMem a = 0

/-- The invariant holds after reset, for both values of `CC_RESET` the spec admits (R34, R36, D2). -/
def Obligations.ResetMeetsTheInvariant : Prop :=
  StateInv State.reset ∧ ∀ c, StateInv (State.resetWith c)

/-- Every step keeps the invariant, whether the cycle completes or is aborted (R26, R36). The memory clause is the
model's own canonical form (log entry 1). -/
def Obligations.StepKeepsTheInvariant : Prop :=
  ∀ s t : State, StateInv s → stateAfter (step s) = some t → StateInv t

/-! ## The host port -/

/-- `load_program` and `peek_memory` (R56, R174): a load that fits puts the words where a peek of them finds them, sets
PC, and touches nothing else; a transfer that does not fit is refused, which is the spec's own decision (D17, D18). -/
def Obligations.LoadedProgramIsReadBack : Prop :=
  (∀ (s : State) (ws : List Word) (start : Word), start.toNat + ws.length ≤ 65536 →
    ∃ t, loadProgram s ws start = .next t ∧ peekMemory t start ws.length = .next ws ∧ t.pc = start ∧
      RegsSameBut [] s t ∧ t.ir = s.ir ∧ t.cc = s.cc ∧
      ∀ a : Word, a.toNat < start.toNat ∨ start.toNat + ws.length ≤ a.toNat → t.readMem a = s.readMem a) ∧
  (∀ (s : State) (ws : List Word) (start : Word), 65536 < start.toNat + ws.length →
    loadProgram s ws start = .refused (.transferDoesNotFit start ws.length)) ∧
  (∀ (s : State) (a : Word) (n : Nat), 65536 < a.toNat + n →
    peekMemory s a n = .refused (.transferDoesNotFit a n)) ∧
  (∀ (s : State) (ws : List Word), loadProgram s ws = loadProgram s ws 0x3000)

/-- The host's load keeps the invariant. -/
def Obligations.LoadKeepsTheInvariant : Prop :=
  ∀ (s t : State) (ws : List Word) (start : Word), StateInv s → loadProgram s ws start = .next t → StateInv t

/-- A run of m + n cycles is a run of m and then, if it completed, one of n from the state it left (R85). -/
def Obligations.RunsCompose : Prop :=
  ∀ (m n : Nat) (s : State), run (m + n) s =
    match run m s with
    | .next t => run n t
    | .fault f => .fault f
    | .refused r => .refused r

/-- A completed run of n cycles none of which executes a control transfer advances PC by exactly n words (R85). -/
def Obligations.StraightLineRunAdvancesPcByItsSteps : Prop :=
  ∀ (n : Nat) (s t : State), run n s = .next t →
    (∀ k u, k < n → run k s = .next u → writesPc (decode (u.readMem u.pc)).form = false) →
    t.pc.toNat = (s.pc.toNat + n) % 65536

/-- An aborted run: the cycles before the last completed, and the last fetched a word of opcode 0x8 or 0xD and did
nothing more; word and address can be recovered from the state it leaves (R86, R151). -/
def Obligations.AbortedRunStopsAtTheOffendingWord : Prop :=
  ∀ (n : Nat) (s : State) (f : Fault), run n s = .fault f →
    ∃ k u op, k < n ∧ run k s = .next u ∧ f = .invalidOpcode op (fetch u) ∧ (op = 0x8 ∨ op = 0xD) ∧
      fieldNat (u.readMem u.pc) 12 4 = op.toNat ∧
      offendingWord (fetch u) = u.readMem u.pc ∧ offendingAddress (fetch u) = u.pc

/-! ## The blocks and the sequencer -/

/-- One cycle of the sequencer over the blocks of R91 to R97 is one step: from FETCH it reaches DONE with the next
state, or ERROR with the aborted one, after the phases of R90 and not before, with the accesses of R52. The phases, the
captured word, the budget and the report stand beside the state, which is the model's choice (log entry 6). -/
def Obligations.SequencerCycleIsTheStep : Prop :=
  ∀ m : Fsm, m.phase = .fetch →
    let i := decode (m.core.readMem m.core.pc)
    let k := Fsm.cyclePhases i.form
    (stateAfter (step m.core) = some (Fsm.ticks k m).core) ∧
    ((Fsm.ticks k m).phase = if i.wellFormed then .done else .error) ∧
    (∀ j, 0 < j → j < k →
      (Fsm.ticks j m).phase ≠ .done ∧ (Fsm.ticks j m).phase ≠ .error ∧ (Fsm.ticks j m).phase ≠ .fetch) ∧
    (Fsm.ticks k m).budget = m.budget ∧ (Fsm.ticks k m).report = m.report ∧
    Fsm.accesses k m = cycleAccesses m.core

/-- A run started on the sequencer with a budget ends in IDLE, with the report and the state of `run` (R85, R86, R90). The
budget and the report stand beside the state, which is the model's choice (log entry 6). -/
def Obligations.SequencerRunIsTheRun : Prop :=
  ∀ (m : Fsm) (n : Nat), m.phase = .idle →
    ∃ k, (Fsm.ticks k (m.startRun (some n))).phase = .idle ∧
      match run n m.core with
      | .next t => (Fsm.ticks k (m.startRun (some n))).core = t ∧
          (Fsm.ticks k (m.startRun (some n))).report = .completed
      | .fault (.invalidOpcode op t) => (Fsm.ticks k (m.startRun (some n))).core = t ∧
          (Fsm.ticks k (m.startRun (some n))).report = .aborted op
      | .refused _ => False

/-- A run started without a budget never completes: it can only be aborted (R87). The report speaks of this run because
its start clears the last one's, which is the model's choice (log entries 6, 19). -/
def Obligations.UnboundedRunNeverCompletes : Prop :=
  ∀ (m : Fsm) (k : Nat), m.phase = .idle →
    (Fsm.ticks k (m.startRun none)).report ≠ .completed ∧
    ((Fsm.ticks k (m.startRun none)).phase = .idle → ∃ op, (Fsm.ticks k (m.startRun none)).report = .aborted op)

/-- The decoder's `invalid` output, and its `op`, are those of the step's error (R92, R150). -/
def Obligations.DecoderFlagsExactlyTheInvalidOpcodes : Prop :=
  ∀ w : Word, (instructionDecoder w).invalid = !(decode w).wellFormed ∧
    (instructionDecoder w).op.toNat = fieldNat w 12 4

/-- The host port is usable only in IDLE (R96): there each operation does what it does on the state, and in any other
phase each is refused. The model's choices in it, which R96 does not state: the refusal of a reset during a run (D19, log
entry 8); that reset leaves captured word 0, budget 0 and no report (log entries 6, 18); that `load_program` leaves budget
and report standing and that the start of a run clears the report (log entry 19). -/
def Obligations.HostPortIsUsableOnlyInIdle : Prop :=
  ∀ (m : Fsm) (ws : List Word) (start : Word) (n : Nat) (budget : Option Nat),
    (m.phase = .idle →
      m.rst = .next Fsm.reset ∧
      (transferFits start ws.length = true →
        ∃ t, loadProgram m.core ws start = .next t ∧ m.load ws start = .next { m with core := t }) ∧
      (transferFits start ws.length = false → m.load ws start = .refused (.transferDoesNotFit start ws.length)) ∧
      m.requestRun budget = .next (m.startRun budget) ∧
      m.peekRegisters = .next (peekRegisters m.core) ∧ m.peekMemory start n = peekMemory m.core start n ∧
      m.peekCc = .next m.core.cc ∧ m.peekPc = .next m.core.pc ∧ m.peekIr = .next m.core.ir) ∧
    (m.phase ≠ .idle →
      m.rst = .refused .hostPortBusy ∧ m.load ws start = .refused .hostPortBusy ∧
      m.requestRun budget = .refused .hostPortBusy ∧ m.peekRegisters = .refused .hostPortBusy ∧
      m.peekMemory start n = .refused .hostPortBusy ∧ m.peekCc = .refused .hostPortBusy ∧
      m.peekPc = .refused .hostPortBusy ∧ m.peekIr = .refused .hostPortBusy)
end

