-- ==== Sys2Proof/Laws/Encode.lean ====
section
/-! SUPPORT. The bits of a field placed in an instruction word. -/

namespace Sys2Proof

@[simp] theorem getElem_place {n : Nat} (f : BitVec n) (lo i : Nat) (h : i < 16) :
    (place f lo)[i] = (decide (lo ≤ i) && f.getLsbD (i - lo)) := by
  by_cases hl : lo ≤ i
  · simp [place, hl]
  · simp [place, hl, Nat.lt_of_not_le hl]

@[simp] theorem getElem_placeReg (r : Reg) (lo i : Nat) (h : i < 16) :
    (placeReg r lo)[i] = (decide (lo ≤ i) && (regBits r).getLsbD (i - lo)) :=
  getElem_place _ _ _ h

@[simp] theorem getElem_placeBit (b : Bool) (lo i : Nat) (h : i < 16) :
    (placeBit b lo)[i] = (decide (lo ≤ i) && decide (i - lo = 0) && b) := by
  simp only [placeBit, getElem_place, BitVec.getLsbD_ofBool, Bool.and_assoc]

/-- A 3-bit field read back as a register index. -/
@[simp] theorem regBits_toFin (r : Reg) : (regBits r).toFin = r := rfl

end Sys2Proof
end

