-- ==== Sys2Proof/Laws/State.lean ====
section
/-! SUPPORT. What each update of the state does to each field, and to each register and word read after it. -/

namespace Sys2Proof.Machine

section Fields
variable (s : State)

@[simp] theorem State.writeReg_regs (r : Reg) (v : Word) : (s.writeReg r v).regs = s.regs.set r v := rfl
@[simp] theorem State.writeReg_pc (r : Reg) (v : Word) : (s.writeReg r v).pc = s.pc := rfl
@[simp] theorem State.writeReg_ir (r : Reg) (v : Word) : (s.writeReg r v).ir = s.ir := rfl
@[simp] theorem State.writeReg_cc (r : Reg) (v : Word) : (s.writeReg r v).cc = s.cc := rfl
@[simp] theorem State.writeReg_mem (r : Reg) (v : Word) : (s.writeReg r v).mem = s.mem := rfl

@[simp] theorem State.setPc_regs (t : Word) : (s.setPc t).regs = s.regs := rfl
@[simp] theorem State.setPc_pc (t : Word) : (s.setPc t).pc = t := rfl
@[simp] theorem State.setPc_ir (t : Word) : (s.setPc t).ir = s.ir := rfl
@[simp] theorem State.setPc_cc (t : Word) : (s.setPc t).cc = s.cc := rfl
@[simp] theorem State.setPc_mem (t : Word) : (s.setPc t).mem = s.mem := rfl

@[simp] theorem State.setIr_regs (w : Word) : (s.setIr w).regs = s.regs := rfl
@[simp] theorem State.setIr_pc (w : Word) : (s.setIr w).pc = s.pc := rfl
@[simp] theorem State.setIr_ir (w : Word) : (s.setIr w).ir = w := rfl
@[simp] theorem State.setIr_cc (w : Word) : (s.setIr w).cc = s.cc := rfl
@[simp] theorem State.setIr_mem (w : Word) : (s.setIr w).mem = s.mem := rfl

@[simp] theorem State.setFlags_regs (c : Flags) : (s.setFlags c).regs = s.regs := rfl
@[simp] theorem State.setFlags_pc (c : Flags) : (s.setFlags c).pc = s.pc := rfl
@[simp] theorem State.setFlags_ir (c : Flags) : (s.setFlags c).ir = s.ir := rfl
@[simp] theorem State.setFlags_cc (c : Flags) : (s.setFlags c).cc = c := rfl
@[simp] theorem State.setFlags_mem (c : Flags) : (s.setFlags c).mem = s.mem := rfl

@[simp] theorem State.writeMem_regs (a v : Word) : (s.writeMem a v).regs = s.regs := rfl
@[simp] theorem State.writeMem_pc (a v : Word) : (s.writeMem a v).pc = s.pc := rfl
@[simp] theorem State.writeMem_ir (a v : Word) : (s.writeMem a v).ir = s.ir := rfl
@[simp] theorem State.writeMem_cc (a v : Word) : (s.writeMem a v).cc = s.cc := rfl
@[simp] theorem State.writeMem_mem (a v : Word) : (s.writeMem a v).mem = s.mem.store a.toNat v := rfl

end Fields

section Reads
variable (s : State)

theorem State.readReg_writeReg (r q : Reg) (v : Word) :
    (s.writeReg r v).readReg q = if q = r then v else s.readReg q := by
  simp only [readReg, writeReg, Fin.getElem_fin, Vector.getElem_set, Fin.ext_iff, eq_comm]

@[simp] theorem State.readReg_writeReg_same (r : Reg) (v : Word) : (s.writeReg r v).readReg r = v := by
  simp [State.readReg_writeReg]

theorem State.readReg_writeReg_other {r q : Reg} (h : q ≠ r) (v : Word) :
    (s.writeReg r v).readReg q = s.readReg q := by
  simp [State.readReg_writeReg, h]

@[simp] theorem State.readReg_setPc (t : Word) (r : Reg) : (s.setPc t).readReg r = s.readReg r := rfl
@[simp] theorem State.readReg_setIr (w : Word) (r : Reg) : (s.setIr w).readReg r = s.readReg r := rfl
@[simp] theorem State.readReg_setFlags (c : Flags) (r : Reg) : (s.setFlags c).readReg r = s.readReg r := rfl
@[simp] theorem State.readReg_writeMem (a v : Word) (r : Reg) : (s.writeMem a v).readReg r = s.readReg r := rfl

@[simp] theorem State.readMem_writeReg (r : Reg) (v a : Word) : (s.writeReg r v).readMem a = s.readMem a := rfl
@[simp] theorem State.readMem_setPc (t a : Word) : (s.setPc t).readMem a = s.readMem a := rfl
@[simp] theorem State.readMem_setIr (w a : Word) : (s.setIr w).readMem a = s.readMem a := rfl
@[simp] theorem State.readMem_setFlags (c : Flags) (a : Word) : (s.setFlags c).readMem a = s.readMem a := rfl

/-- Two states whose registers read alike and whose other fields agree are equal. -/
theorem State.ext_reads {s t : State} (hr : ∀ r, s.readReg r = t.readReg r) (hp : s.pc = t.pc) (hi : s.ir = t.ir)
    (hc : s.cc = t.cc) (hm : s.mem = t.mem) : s = t := by
  have h : s.regs = t.regs := Vector.ext fun i hi' => hr ⟨i, hi'⟩
  cases s; cases t; simp_all

end Reads

section Composite
variable (s : State)

@[simp] theorem fetch_regs : (fetch s).regs = s.regs := rfl
@[simp] theorem fetch_pc : (fetch s).pc = s.pc + 1 := rfl
@[simp] theorem fetch_ir : (fetch s).ir = s.readMem s.pc := rfl
@[simp] theorem fetch_cc : (fetch s).cc = s.cc := rfl
@[simp] theorem fetch_mem : (fetch s).mem = s.mem := rfl
@[simp] theorem fetch_readReg (r : Reg) : (fetch s).readReg r = s.readReg r := rfl
@[simp] theorem fetch_readMem (a : Word) : (fetch s).readMem a = s.readMem a := rfl

@[simp] theorem link_pc : (link s).pc = s.pc := rfl
@[simp] theorem link_ir : (link s).ir = s.ir := rfl
@[simp] theorem link_cc : (link s).cc = s.cc := rfl
@[simp] theorem link_mem : (link s).mem = s.mem := rfl
@[simp] theorem link_readMem (a : Word) : (link s).readMem a = s.readMem a := rfl

/-- The link writes R7 with `pc` and no other register. -/
theorem link_readReg (q : Reg) : (link s).readReg q = if q = 7 then s.pc else s.readReg q :=
  State.readReg_writeReg s 7 q s.pc

@[simp] theorem State.writeResult_pc (d : Reg) (v : Word) : (s.writeResult d v).pc = s.pc := rfl
@[simp] theorem State.writeResult_ir (d : Reg) (v : Word) : (s.writeResult d v).ir = s.ir := rfl
@[simp] theorem State.writeResult_cc (d : Reg) (v : Word) : (s.writeResult d v).cc = setcc v := rfl
@[simp] theorem State.writeResult_mem (d : Reg) (v : Word) : (s.writeResult d v).mem = s.mem := rfl
@[simp] theorem State.readMem_writeResult (d : Reg) (v a : Word) :
    (s.writeResult d v).readMem a = s.readMem a := rfl

/-- A flag-setting result writes its destination and no other register. -/
theorem State.readReg_writeResult (d q : Reg) (v : Word) :
    (s.writeResult d v).readReg q = if q = d then v else s.readReg q :=
  State.readReg_writeReg s d q v

end Composite

end Sys2Proof.Machine
end

