-- ==== Sys2Proof/Laws/Memory.lean ====
section
/-! SUPPORT. The laws of memory: what a read finds after a store, and that every operation keeps the canonical form. -/

namespace Sys2Proof.Machine

theorem Memory.lookup_erase (m : Memory) (a b : Nat) :
    (m.erase a).lookup b = if b = a then 0 else m.lookup b := by
  induction m with
  | nil => simp [Memory.erase, Memory.lookup]
  | cons c m ih =>
    obtain ⟨k, w⟩ := c
    simp only [Memory.erase, Memory.lookup]
    by_cases hk : k = a
    · subst hk
      by_cases hb : b = k
      · rw [if_pos rfl, ih, if_pos hb, if_pos hb]
      · simp [ih, hb, Ne.symm hb]
    · by_cases hb : b = a
      · subst hb; simp [Memory.lookup, hk, ih]
      · simp [Memory.lookup, hk, hb, ih]

/-- After a word is added at an address nothing lists, that address reads as it and no other changes. -/
theorem Memory.lookup_insert (m : Memory) (a b : Nat) (v : Word) (h : ∀ c ∈ m, c.1 ≠ a) :
    (m.insert a v).lookup b = if b = a then v else m.lookup b := by
  induction m with
  | nil => simp [Memory.insert, Memory.lookup, eq_comm]
  | cons c m ih =>
    obtain ⟨k, w⟩ := c
    have hk : k ≠ a := h (k, w) (by simp)
    have ih := ih fun c hc => h c (by simp [hc])
    simp only [Memory.insert]
    split
    · simp only [Memory.lookup, ih]
      by_cases hb : b = a
      · subst hb; simp [hk]
      · simp [hb]
    · simp [Memory.lookup, eq_comm]

theorem Memory.mem_erase {m : Memory} {a : Nat} {c : Nat × Word} (h : c ∈ m.erase a) : c ∈ m ∧ c.1 ≠ a := by
  induction m with
  | nil => simp [Memory.erase] at h
  | cons d m ih =>
    obtain ⟨k, w⟩ := d
    simp only [Memory.erase] at h
    split at h
    · exact ⟨List.mem_cons_of_mem _ (ih h).1, (ih h).2⟩
    · rename_i hk
      rcases List.mem_cons.1 h with rfl | h
      · exact ⟨List.mem_cons_self, hk⟩
      · exact ⟨List.mem_cons_of_mem _ (ih h).1, (ih h).2⟩

/-- What a read finds after a store, in any memory: the word stored there, every other address as before (R44). -/
theorem Memory.lookup_store (m : Memory) (a b : Nat) (v : Word) :
    (m.store a v).lookup b = if b = a then v else m.lookup b := by
  unfold Memory.store
  split
  · subst v; exact Memory.lookup_erase m a b
  · rw [Memory.lookup_insert _ _ _ _ fun c hc => (Memory.mem_erase hc).2, Memory.lookup_erase]
    by_cases hb : b = a <;> simp [hb]

theorem Memory.risingFrom_mono {b c : Nat} (h : c ≤ b) {m : Memory} (hm : Memory.risingFrom b m = true) :
    Memory.risingFrom c m = true := by
  cases m with
  | nil => rfl
  | cons d m =>
    simp only [Memory.risingFrom, Bool.and_eq_true, decide_eq_true_eq] at hm ⊢
    exact ⟨h.trans hm.1, hm.2⟩

theorem Memory.risingFrom_erase (m : Memory) (a b : Nat) (h : Memory.risingFrom b m = true) :
    Memory.risingFrom b (m.erase a) = true := by
  induction m generalizing b with
  | nil => rfl
  | cons d m ih =>
    obtain ⟨k, w⟩ := d
    simp only [Memory.risingFrom, Bool.and_eq_true, decide_eq_true_eq] at h
    simp only [Memory.erase]
    split
    · exact Memory.risingFrom_mono (by omega) (ih _ h.2)
    · simpa [Memory.risingFrom, h.1] using ih _ h.2

theorem Memory.risingFrom_insert (m : Memory) (a b : Nat) (v : Word) (h : Memory.risingFrom b m = true)
    (hb : b ≤ a) (hn : ∀ c ∈ m, c.1 ≠ a) : Memory.risingFrom b (m.insert a v) = true := by
  induction m generalizing b with
  | nil => simp [Memory.insert, Memory.risingFrom, hb]
  | cons d m ih =>
    obtain ⟨k, w⟩ := d
    have hk : k ≠ a := hn (k, w) (by simp)
    simp only [Memory.risingFrom, Bool.and_eq_true, decide_eq_true_eq] at h
    simp only [Memory.insert]
    split
    · simpa [Memory.risingFrom, h.1] using ih _ h.2 (by omega) fun c hc => hn c (by simp [hc])
    · simp only [Memory.risingFrom, Bool.and_eq_true, decide_eq_true_eq]
      exact ⟨hb, by omega, h.2⟩

theorem Memory.mem_insert {m : Memory} {a : Nat} {v : Word} {c : Nat × Word} (h : c ∈ m.insert a v) :
    c = (a, v) ∨ c ∈ m := by
  induction m with
  | nil => simpa [Memory.insert] using h
  | cons d m ih =>
    obtain ⟨k, w⟩ := d
    simp only [Memory.insert] at h
    split at h
    · rcases List.mem_cons.1 h with rfl | h
      · simp
      · rcases ih h with h | h <;> simp [h]
    · simpa using h

/-- A store at a 16-bit address keeps the canonical form. -/
theorem Memory.wf_store {m : Memory} (h : m.wf = true) (a v : Word) : (m.store a.toNat v).wf = true := by
  simp only [Memory.wf, Bool.and_eq_true, List.all_eq_true, decide_eq_true_eq] at h ⊢
  obtain ⟨hr, ha⟩ := h
  have he : ∀ c ∈ m.erase a.toNat, c.1 < Config.memWords ∧ c.2 ≠ 0 := fun c hc => ha c (Memory.mem_erase hc).1
  have hre := Memory.risingFrom_erase m a.toNat 0 hr
  unfold Memory.store
  split
  · exact ⟨hre, he⟩
  · rename_i hv
    refine ⟨Memory.risingFrom_insert _ _ _ _ hre (Nat.zero_le _) fun c hc => (Memory.mem_erase hc).2, fun c hc => ?_⟩
    rcases Memory.mem_insert hc with rfl | hc
    · exact ⟨a.isLt, hv⟩
    · exact he c hc

/-- What a read finds after `MemWrite` (R44). -/
theorem State.readMem_writeMem (s : State) (a v b : Word) :
    (s.writeMem a v).readMem b = if b = a then v else s.readMem b := by
  simp [State.readMem, State.writeMem, Memory.lookup_store, BitVec.toNat_inj]

theorem State.wf_writeMem {s : State} (h : s.mem.wf = true) (a v : Word) : (s.writeMem a v).mem.wf = true :=
  Memory.wf_store h a v

/-- One access at the memory port keeps the canonical form. -/
theorem Access.wf_applyTo {m : Memory} (h : m.wf = true) (x : Access) : (x.applyTo m).wf = true := by
  cases x with
  | read _ => exact h
  | write a v => exact Memory.wf_store h a v

/-- The host's load keeps the canonical form. -/
theorem wf_writeWords (ws : List Word) (s : State) (n : Nat) (h : s.mem.wf = true) :
    (writeWords s n ws).mem.wf = true := by
  induction ws generalizing s n with
  | nil => exact h
  | cons w ws ih => exact ih _ _ (State.wf_writeMem h _ _)

theorem wf_resetWith (c : Config.CcReset) : (State.resetWith c).mem.wf = true := rfl

end Sys2Proof.Machine
end

