-- ==== Sys2Proof/Laws/Operands.lean ====
section
/-! SUPPORT. The operand forms and the flag computation in the integer terms of the spec. -/

namespace Sys2Proof.Machine

/-- The value of a sign-extended field, over the integers (R9). -/
theorem sext_toNat {n : Nat} (f : BitVec n) (h0 : 0 < n) (h : n ≤ 16) :
    (sext f).toNat = Safety.sextNat n f.toNat := by
  have hp : 2 ^ n ≤ 2 ^ 16 := Nat.pow_le_pow_right (by decide) h
  have hd : 2 ^ n = 2 * 2 ^ (n - 1) := by rw [← Nat.pow_succ']; congr 1; omega
  have hf := f.isLt
  simp only [sext, Safety.sextNat, BitVec.toNat_signExtend, BitVec.msb_eq_decide, BitVec.toNat_setWidth]
  have hm : f.toNat % 2 ^ 16 = f.toNat := Nat.mod_eq_of_lt (by omega)
  by_cases hs : f.toNat < 2 ^ (n - 1)
  · have : ¬ 2 ^ (n - 1) ≤ f.toNat := by omega
    simp only [hs, this, hm, decide_false, if_true, Bool.false_eq_true, if_false]
    omega
  · have : 2 ^ (n - 1) ≤ f.toNat := by omega
    simp only [hs, this, hm, decide_true, if_true, if_false]
    omega

/-- The value of a zero-extended field (R9). -/
theorem zext_toNat {n : Nat} (f : BitVec n) (h : n ≤ 16) : (zext f).toNat = f.toNat := by
  have hp : 2 ^ n ≤ 2 ^ 16 := Nat.pow_le_pow_right (by decide) h
  have hf := f.isLt
  simp only [zext, BitVec.toNat_setWidth]
  exact Nat.mod_eq_of_lt (by omega)

/-- The three cases of `setcc`, which exclude each other (R27). -/
theorem setcc_cases (v : Word) :
    (v = 0 ∧ setcc v = ⟨false, true, false⟩) ∨ (v ≠ 0 ∧ v.msb = true ∧ setcc v = ⟨true, false, false⟩) ∨
      (v ≠ 0 ∧ v.msb = false ∧ setcc v = ⟨false, false, true⟩) := by
  unfold setcc
  by_cases h : v = 0
  · simp [h]
  · have h' : ¬ v = 0#16 := h
    cases hm : v.msb <;> simp [h']

end Sys2Proof.Machine
end

