-- ==== Sys2Proof/Laws/Exec.lean ====
section
/-! SUPPORT. What executing an instruction can do, said once: the shapes of the next state, and the stop. -/

namespace Sys2Proof.Machine

/-- What an instruction may write: the flags, memory, PC, and which general registers. -/
def Writes (i : Instr) (flags mem pc : Bool) (regs : List Reg) : Prop :=
  Safety.setsFlags i.form = flags ∧ Safety.writesMem i.form = mem ∧ Safety.writesPc i.form = pc ∧
    Safety.regsWritten i = regs

/-- The five shapes of a next state: a flag-setting result, a stored word, a jump, a call, nothing. -/
theorem exec_next_shape {i : Instr} {s t : State} (h : exec i s = .next t) :
    (∃ d v, Writes i true false false [d] ∧ t = s.writeResult d v) ∨
    (∃ a v, Writes i false true false [] ∧ t = s.writeMem a v) ∨
    (∃ p, Writes i false false true [] ∧ t = s.setPc p) ∨
    (∃ p, Writes i false false true [7] ∧ t = (link s).setPc p) ∨
    (i.form = .br ∧ Writes i false false true [] ∧ t = s) := by
  cases i with
  | br n z p off9 =>
    simp only [exec, execBr, Host.Outcome.next.injEq] at h
    subst h
    split
    · exact .inr (.inr (.inl ⟨_, ⟨rfl, rfl, rfl, rfl⟩, rfl⟩))
    · exact .inr (.inr (.inr (.inr ⟨rfl, ⟨rfl, rfl, rfl, rfl⟩, rfl⟩)))
  | invalid8 => exact absurd h nofun
  | invalidD => exact absurd h nofun
  | jmp _ => cases h; exact .inr (.inr (.inl ⟨_, ⟨rfl, rfl, rfl, rfl⟩, rfl⟩))
  | jsr _ => cases h; exact .inr (.inr (.inr (.inl ⟨_, ⟨rfl, rfl, rfl, rfl⟩, rfl⟩)))
  | jsrr _ => cases h; exact .inr (.inr (.inr (.inl ⟨_, ⟨rfl, rfl, rfl, rfl⟩, rfl⟩)))
  | trap _ => cases h; exact .inr (.inr (.inr (.inl ⟨_, ⟨rfl, rfl, rfl, rfl⟩, rfl⟩)))
  | st _ _ => cases h; exact .inr (.inl ⟨_, _, ⟨rfl, rfl, rfl, rfl⟩, rfl⟩)
  | sti _ _ => cases h; exact .inr (.inl ⟨_, _, ⟨rfl, rfl, rfl, rfl⟩, rfl⟩)
  | str _ _ _ => cases h; exact .inr (.inl ⟨_, _, ⟨rfl, rfl, rfl, rfl⟩, rfl⟩)
  | addReg _ _ _ => cases h; exact .inl ⟨_, _, ⟨rfl, rfl, rfl, rfl⟩, rfl⟩
  | addImm _ _ _ => cases h; exact .inl ⟨_, _, ⟨rfl, rfl, rfl, rfl⟩, rfl⟩
  | andReg _ _ _ => cases h; exact .inl ⟨_, _, ⟨rfl, rfl, rfl, rfl⟩, rfl⟩
  | andImm _ _ _ => cases h; exact .inl ⟨_, _, ⟨rfl, rfl, rfl, rfl⟩, rfl⟩
  | not _ _ => cases h; exact .inl ⟨_, _, ⟨rfl, rfl, rfl, rfl⟩, rfl⟩
  | ld _ _ => cases h; exact .inl ⟨_, _, ⟨rfl, rfl, rfl, rfl⟩, rfl⟩
  | ldi _ _ => cases h; exact .inl ⟨_, _, ⟨rfl, rfl, rfl, rfl⟩, rfl⟩
  | ldr _ _ _ => cases h; exact .inl ⟨_, _, ⟨rfl, rfl, rfl, rfl⟩, rfl⟩
  | lea _ _ => cases h; exact .inl ⟨_, _, ⟨rfl, rfl, rfl, rfl⟩, rfl⟩

/-- An execute routine stops only for the two invalid opcodes, with nothing more written (R150, R151). -/
theorem exec_fault_shape {i : Instr} {s : State} {f : Fault} (h : exec i s = .fault f) :
    (i = .invalid8 ∧ f = .invalidOpcode 0x8 s) ∨ (i = .invalidD ∧ f = .invalidOpcode 0xD s) := by
  cases i with
  | invalid8 => cases h; exact .inl ⟨rfl, rfl⟩
  | invalidD => cases h; exact .inr ⟨rfl, rfl⟩
  | br _ _ _ _ => simp [exec, execBr] at h
  | _ => cases h

end Sys2Proof.Machine
end

