-- ==== Sys2Proof/Laws/Host.lean ====
section
/-! SUPPORT. The host port: when a transfer fits, and what a load leaves in memory and in the registers. -/

namespace Sys2Proof.Machine

/-- The check of R56 as an inequality. -/
theorem transferFits_iff (a : Word) (n : Nat) : transferFits a n = true ↔ a.toNat + n ≤ 65536 := by
  unfold transferFits Config.memWords
  exact decide_eq_true_iff

/-- What a read finds after consecutive words have been written: the word of its place in the range, or what it found
before (R174). -/
theorem readMem_writeWords (ws : List Word) (s : State) (n : Nat) (a : Word) (h : n + ws.length ≤ 65536) :
    (writeWords s n ws).readMem a =
      if n ≤ a.toNat ∧ a.toNat < n + ws.length then ws.getD (a.toNat - n) 0 else s.readMem a := by
  induction ws generalizing s n with
  | nil => rw [if_neg (by simp)]; rfl
  | cons w ws ih =>
    rw [List.length_cons] at h ⊢
    rw [writeWords, ih _ _ (by omega), State.readMem_writeMem]
    by_cases ha : a.toNat = n
    · have hw : a = BitVec.ofNat 16 n := by apply BitVec.eq_of_toNat_eq; simp; omega
      rw [if_neg (by omega), if_pos hw, if_pos (by omega), ha, Nat.sub_self]
      rfl
    · have hw : a ≠ BitVec.ofNat 16 n := by rintro rfl; simp at ha; omega
      by_cases hr : n + 1 ≤ a.toNat ∧ a.toNat < n + 1 + ws.length
      · obtain ⟨k, hk⟩ : ∃ k, a.toNat - n = k + 1 := ⟨a.toNat - n - 1, by omega⟩
        rw [if_pos hr, if_pos (by omega), hk, List.getD_cons_succ, show a.toNat - (n + 1) = k by omega]
      · rw [if_neg hr, if_neg hw, if_neg (by omega)]

/-- A load writes no register, no flag and not IR (R171, R174). -/
theorem writeWords_rest (ws : List Word) (s : State) (n : Nat) :
    (writeWords s n ws).regs = s.regs ∧ (writeWords s n ws).pc = s.pc ∧ (writeWords s n ws).ir = s.ir ∧
      (writeWords s n ws).cc = s.cc := by
  induction ws generalizing s n with
  | nil => exact ⟨rfl, rfl, rfl, rfl⟩
  | cons w ws ih => exact ih _ _

end Sys2Proof.Machine
end

