-- ==== Sys2Proof/Laws/PerInstr.lean ====
section
/-! SUPPORT. Per-instruction facts. The family EncodedInRow: the word of an instruction has, under the mask of its row
of spec/opcode_table.json, the row's fixed bits, and in the ignored bits what R75 writes there. -/

namespace Sys2Proof.Laws.EncodedInRow

/-- A masked word is a given one if it is so bit by bit. -/
theorem and_eq_of_bits {x m p : Word} (h : ∀ i : Fin 16, (x[i] && m[i]) = p[i]) : x &&& m = p :=
  BitVec.eq_of_getElem_eq fun i hi => by simpa using h ⟨i, hi⟩

/-- The encoding of an instruction lies in its own row of the opcode table (R61, R75, R77). -/
def Statement (i : Instr) : Prop :=
  encode i &&& i.form.mask = i.form.pattern ∧ encode i &&& i.form.ignored = i.form.ignoredFill

theorem addReg (dr sr1 sr2 : Reg) : Statement (.addReg dr sr1 sr2) := by
  constructor <;> apply and_eq_of_bits <;> intro i <;> fin_cases i <;>
    simp [encode, Instr.form, Form.mask, Form.pattern, Form.ignored, Form.ignoredFill]

theorem addImm (dr sr1 : Reg) (imm5 : BitVec 5) : Statement (.addImm dr sr1 imm5) := by
  constructor <;> apply and_eq_of_bits <;> intro i <;> fin_cases i <;>
    simp [encode, Instr.form, Form.mask, Form.pattern, Form.ignored, Form.ignoredFill]

theorem andReg (dr sr1 sr2 : Reg) : Statement (.andReg dr sr1 sr2) := by
  constructor <;> apply and_eq_of_bits <;> intro i <;> fin_cases i <;>
    simp [encode, Instr.form, Form.mask, Form.pattern, Form.ignored, Form.ignoredFill]

theorem andImm (dr sr1 : Reg) (imm5 : BitVec 5) : Statement (.andImm dr sr1 imm5) := by
  constructor <;> apply and_eq_of_bits <;> intro i <;> fin_cases i <;>
    simp [encode, Instr.form, Form.mask, Form.pattern, Form.ignored, Form.ignoredFill]

theorem not (dr sr : Reg) : Statement (.not dr sr) := by
  constructor <;> apply and_eq_of_bits <;> intro i <;> fin_cases i <;>
    simp [encode, Instr.form, Form.mask, Form.pattern, Form.ignored, Form.ignoredFill]

theorem br (n z p : Bool) (off9 : BitVec 9) : Statement (.br n z p off9) := by
  constructor <;> apply and_eq_of_bits <;> intro i <;> fin_cases i <;>
    simp [encode, Instr.form, Form.mask, Form.pattern, Form.ignored, Form.ignoredFill]

theorem jmp (base : Reg) : Statement (.jmp base) := by
  constructor <;> apply and_eq_of_bits <;> intro i <;> fin_cases i <;>
    simp [encode, Instr.form, Form.mask, Form.pattern, Form.ignored, Form.ignoredFill]

theorem jsr (off11 : BitVec 11) : Statement (.jsr off11) := by
  constructor <;> apply and_eq_of_bits <;> intro i <;> fin_cases i <;>
    simp [encode, Instr.form, Form.mask, Form.pattern, Form.ignored, Form.ignoredFill]

theorem jsrr (base : Reg) : Statement (.jsrr base) := by
  constructor <;> apply and_eq_of_bits <;> intro i <;> fin_cases i <;>
    simp [encode, Instr.form, Form.mask, Form.pattern, Form.ignored, Form.ignoredFill]

theorem ld (dr : Reg) (off9 : BitVec 9) : Statement (.ld dr off9) := by
  constructor <;> apply and_eq_of_bits <;> intro i <;> fin_cases i <;>
    simp [encode, Instr.form, Form.mask, Form.pattern, Form.ignored, Form.ignoredFill]

theorem ldi (dr : Reg) (off9 : BitVec 9) : Statement (.ldi dr off9) := by
  constructor <;> apply and_eq_of_bits <;> intro i <;> fin_cases i <;>
    simp [encode, Instr.form, Form.mask, Form.pattern, Form.ignored, Form.ignoredFill]

theorem ldr (dr base : Reg) (off6 : BitVec 6) : Statement (.ldr dr base off6) := by
  constructor <;> apply and_eq_of_bits <;> intro i <;> fin_cases i <;>
    simp [encode, Instr.form, Form.mask, Form.pattern, Form.ignored, Form.ignoredFill]

theorem lea (dr : Reg) (off9 : BitVec 9) : Statement (.lea dr off9) := by
  constructor <;> apply and_eq_of_bits <;> intro i <;> fin_cases i <;>
    simp [encode, Instr.form, Form.mask, Form.pattern, Form.ignored, Form.ignoredFill]

theorem st (sr : Reg) (off9 : BitVec 9) : Statement (.st sr off9) := by
  constructor <;> apply and_eq_of_bits <;> intro i <;> fin_cases i <;>
    simp [encode, Instr.form, Form.mask, Form.pattern, Form.ignored, Form.ignoredFill]

theorem sti (sr : Reg) (off9 : BitVec 9) : Statement (.sti sr off9) := by
  constructor <;> apply and_eq_of_bits <;> intro i <;> fin_cases i <;>
    simp [encode, Instr.form, Form.mask, Form.pattern, Form.ignored, Form.ignoredFill]

theorem str (sr base : Reg) (off6 : BitVec 6) : Statement (.str sr base off6) := by
  constructor <;> apply and_eq_of_bits <;> intro i <;> fin_cases i <;>
    simp [encode, Instr.form, Form.mask, Form.pattern, Form.ignored, Form.ignoredFill]

theorem trap (vect8 : BitVec 8) : Statement (.trap vect8) := by
  constructor <;> apply and_eq_of_bits <;> intro i <;> fin_cases i <;>
    simp [encode, Instr.form, Form.mask, Form.pattern, Form.ignored, Form.ignoredFill]

theorem invalid8  : Statement (.invalid8) := by
  constructor <;> apply and_eq_of_bits <;> intro i <;> fin_cases i <;>
    simp [encode, Instr.form, Form.mask, Form.pattern, Form.ignored, Form.ignoredFill]

theorem invalidD  : Statement (.invalidD) := by
  constructor <;> apply and_eq_of_bits <;> intro i <;> fin_cases i <;>
    simp [encode, Instr.form, Form.mask, Form.pattern, Form.ignored, Form.ignoredFill]

end Sys2Proof.Laws.EncodedInRow
end

