-- ==== Sys2Proof/Laws/Sequencer.lean ====
section
/-! SUPPORT. What one phase does in FETCH, DONE and ERROR, how phases add up, and what a request at the host port answers. -/

namespace Sys2Proof.Machine

theorem Fsm.ticks_add (a b : Nat) (m : Fsm) : Fsm.ticks (a + b) m = Fsm.ticks b (Fsm.ticks a m) := by
  induction a generalizing m with
  | zero => rw [Nat.zero_add]; rfl
  | succ a ih => rw [Nat.succ_add]; exact ih _

/-- FETCH is the fetch step (R81, R90). -/
theorem Fsm.tick_fetch {m : Fsm} (h : m.phase = .fetch) :
    m.tick = { m with core := fetch m.core, phase := .decode } ∧ m.memPort = some (.read m.core.pc) := by
  cases m; cases h; exact ⟨rfl, rfl⟩

/-- DONE counts the cycle and ends the run when the budget is spent (R90). -/
theorem Fsm.tick_done {m : Fsm} (h : m.phase = .done) :
    m.tick = { m with
      phase := if m.budgetAfter = some 0 then .idle else .fetch
      budget := m.budgetAfter
      report := if m.budgetAfter = some 0 then .completed else m.report } := by
  cases m; cases h; rfl

/-- ERROR presents the opcode to the host and ends the run (R90). -/
theorem Fsm.tick_error {m : Fsm} (h : m.phase = .error) :
    m.tick = { m with phase := .idle, report := .aborted (instructionDecoder m.core.ir).op } := by
  cases m; cases h; rfl

/-- In IDLE nothing happens until the host acts (R90). -/
theorem Fsm.tick_idle {m : Fsm} (h : m.phase = .idle) : m.tick = m := by
  cases m; cases h; rfl

theorem Fsm.request_idle {α : Type} {m : Fsm} (h : m.phase = .idle) (o : Host.Outcome α Fault Refusal) :
    m.request o = o := if_pos h

theorem Fsm.request_busy {α : Type} {m : Fsm} (h : m.phase ≠ .idle) (o : Host.Outcome α Fault Refusal) :
    m.request o = .refused .hostPortBusy := if_neg h

end Sys2Proof.Machine
end

