-- ==== Sys2Proof/Tests/Slice0.lean ====
section
/-! SUPPORT. Tests of the model, and a witness for every statement that has hypotheses. The expected values are those of
spec/95_test_vectors.md (V<n>, H<n>, section numbers) or worked out by hand from the rules named. -/

namespace Sys2Proof.Tests

open Sys2Proof.Machine Sys2Proof.Safety

/-- N set, alone. -/
def fN : Flags := ⟨true, false, false⟩
/-- Z set, alone. -/
def fZ : Flags := ⟨false, true, false⟩
/-- P set, alone. -/
def fP : Flags := ⟨false, false, true⟩
/-- No flag set. -/
def f0 : Flags := ⟨false, false, false⟩

/-- A start state of 95_test_vectors.md: the word `w` at `pc`, the registers and memory words listed, all else reset. -/
def start (pc w : Word) (c : Flags) (rs : List (Reg × Word)) (ms : List (Word × Word)) : State :=
  ms.foldl (fun s m => s.writeMem m.1 m.2)
    (rs.foldl (fun s r => s.writeReg r.1 r.2) ((((State.reset.setPc pc).setFlags c)).writeMem pc w))

/-- The outcome is a next state of which `p` holds. -/
def gives (o : Host.Outcome State Fault Refusal) (p : State → Bool) : Bool :=
  match o with
  | .next t => p t
  | .fault _ => false
  | .refused _ => false

/-- The outcome is the error for `op`, with a state of which `p` holds. -/
def aborts (o : Host.Outcome State Fault Refusal) (op : BitVec 4) (p : State → Bool) : Bool :=
  match o with
  | .next _ => false
  | .fault (.invalidOpcode op' t) => op' == op && p t
  | .refused _ => false

/-- A register, the flags and PC after a cycle. -/
def ends (r : Reg) (v : Word) (c : Flags) (pc : Word) (t : State) : Bool :=
  t.readReg r == v && t.cc == c && t.pc == pc

/-! ## Well-formedness -/

theorem test_wf_invalid8_refused : Instr.wellFormed .invalid8 = false := by decide
theorem test_wf_invalidD_refused : Instr.wellFormed .invalidD = false := by decide
theorem test_wf_valid_accepted : Instr.wellFormed (.trap 0xFF) = true ∧ Instr.wellFormed (.br false false false 0) = true := by
  decide
-- H11, H12: a transfer past the top of memory is refused, one that ends at the top is not
theorem test_wf_transfer_past_top_refused : transferFits 0xFFFF 2 = false := by decide
theorem test_wf_transfer_to_top_accepted : transferFits 0xFFFF 1 = true ∧ transferFits 0x0000 65536 = true := by decide

/-! ## Decoding and encoding, by the words of section 2.8 written out bit by bit -/

theorem test_decode_operate :
    decode 0b0001_001_001_1_00011 = .addImm 1 1 3 ∧ decode 0b0001_011_001_0_00_010 = .addReg 3 1 2 ∧
    decode 0b0101_000_001_0_00_000 = .andReg 0 1 0 ∧ decode 0b0101_010_010_1_00000 = .andImm 2 2 0 ∧
    decode 0b1001_100_101_111111 = .not 4 5 := by decide
theorem test_decode_control :
    decode 0b0000_111_000000001 = .br true true true 1 ∧ decode 0b1100_000_111_000000 = .jmp 7 ∧
    decode 0b0100_1_00000000010 = .jsr 2 ∧ decode 0b0100_0_00_011_000000 = .jsrr 3 := by decide
theorem test_decode_memory :
    decode 0b0010_010_000000101 = .ld 2 5 ∧ decode 0b1010_001_000000011 = .ldi 1 3 ∧
    decode 0b0110_100_110_111110 = .ldr 4 6 0x3E ∧ decode 0b1110_000_111111110 = .lea 0 0x1FE ∧
    decode 0b0011_011_000000100 = .st 3 4 ∧ decode 0b1011_101_111111100 = .sti 5 0x1FC ∧
    decode 0b0111_001_010_011111 = .str 1 2 0x1F := by decide
theorem test_decode_trap_and_invalid :
    decode 0b1111_0000_00100101 = .trap 0x25 ∧ decode 0b1000_000100100011 = .invalid8 ∧
    decode 0b1101_000000000000 = .invalidD := by decide
-- V9, V19, V33, V41, V70: the ignored bits, set
theorem test_decode_ignored_bits :
    decode 0x105A = .addReg 0 1 2 ∧ decode 0x9940 = .not 4 5 ∧ decode 0xCEBF = .jmp 2 ∧ decode 0x46FF = .jsrr 3 ∧
    decode 0xFFFF = .trap 0xFF := by decide
-- section 2.8, right to left
theorem test_encode_words :
    encode (.addImm 1 1 3) = 0x1263 ∧ encode (.not 4 5) = 0x997F ∧ encode (.jmp 7) = 0xC1C0 ∧
    encode (.sti 5 0x1FC) = 0xBBFC ∧ encode (.trap 0x25) = 0xF025 ∧ encode (.jsr 2) = 0x4802 ∧
    encode (.br true true true 1) = 0x0E01 := by decide
-- the ADD immediate row of opcode_table.json: mask 0xF020, match 0x1020
theorem test_decode_table_word : decodeTableWord 16 0x1020 = some (.addImm 0 0 0) := by decide
theorem test_with_fetch_word : gives (step (State.reset.withFetchWord 16 0x1263)) (ends 1 3 fP 1) = true := by decide

/-! ## Operand forms and flags (sections 1.3 and 2.1) -/

theorem test_sext :
    sext (0x10 : BitVec 5) = 0xFFF0 ∧ sext (0x0F : BitVec 5) = 0x000F ∧ sext (0x20 : BitVec 6) = 0xFFE0 ∧
    sext (0x100 : BitVec 9) = 0xFF00 ∧ sext (0x400 : BitVec 11) = 0xFC00 ∧ sext (0x3FF : BitVec 11) = 0x03FF := by decide
theorem test_setcc :
    setcc 0 = fZ ∧ setcc 1 = fP ∧ setcc 0x7FFF = fP ∧ setcc 0x8000 = fN ∧ setcc 0xFFFF = fN := by decide

/-! ## One cycle of each form (sections 2.2 to 2.7) -/

theorem test_add_reg_V1 : gives (step (start 0x3000 0x1642 f0 [(1, 0x7FFF), (2, 1)] [])) (ends 3 0x8000 fN 0x3001) = true := by
  decide
theorem test_add_reg_V2 : gives (step (start 0x3000 0x1241 fP [(1, 0xC000)] [])) (ends 1 0x8000 fN 0x3001) = true := by
  decide
theorem test_add_imm_V6 : gives (step (start 0x3000 0x156F fN [(2, 0x1111), (5, 0xFFF1)] [])) (ends 2 0 fZ 0x3001) = true := by
  decide
theorem test_add_imm_V7 : gives (step (start 0x3000 0x1570 fP [(2, 0x1111), (5, 0x10)] [])) (ends 2 0 fZ 0x3001) = true := by
  decide
theorem test_and_reg_V15 :
    gives (step (start 0x3000 0x5B87 f0 [(6, 0xF0F0), (7, 0x8FF0)] [])) (ends 5 0x80F0 fN 0x3001) = true := by decide
theorem test_and_imm_V13 : gives (step (start 0x3000 0x5730 f0 [(4, 0x1234)] [])) (ends 3 0x1230 fP 0x3001) = true := by
  decide
theorem test_and_imm_V14 : gives (step (start 0x3000 0x572F f0 [(4, 0x1234)] [])) (ends 3 4 fP 0x3001) = true := by decide
theorem test_not_V16 : gives (step (start 0x3000 0x997F f0 [(5, 0xFF)] [])) (ends 4 0xFF00 fN 0x3001) = true := by decide
theorem test_not_V17 : gives (step (start 0x3000 0x903F fN [(0, 0xFFFF)] [])) (ends 0 0 fZ 0x3001) = true := by decide
theorem test_br_V22 : gives (step (start 0x3010 0x05FD fZ [] [])) (ends 0 0 fZ 0x300E) = true := by decide
theorem test_br_V26 : gives (step (start 0x3000 0x0A07 fZ [] [])) (ends 0 0 fZ 0x3001) = true := by decide
theorem test_jmp_V31 : gives (step (start 0x3000 0xC080 f0 [(2, 0x4000)] [])) (ends 2 0x4000 f0 0x4000) = true := by decide
theorem test_jsr_V35 : gives (step (start 0x3000 0x4C00 f0 [] [])) (ends 7 0x3001 f0 0x2C01) = true := by decide
theorem test_jsr_V38 : gives (step (start 0xFFFF 0x4800 f0 [(7, 0x1111)] [])) (ends 7 0 f0 0) = true := by decide
theorem test_jsrr_V39 : gives (step (start 0x3005 0x40C0 f0 [(3, 0x5000)] [])) (ends 7 0x3006 f0 0x5000) = true := by
  decide
theorem test_jsrr_V40 : gives (step (start 0x3005 0x41C0 f0 [(7, 0x1234)] [])) (ends 7 0x3006 f0 0x3006) = true := by
  decide
theorem test_ld_V42 : gives (step (start 0x3000 0x2405 f0 [] [(0x3006, 0x8001)])) (ends 2 0x8001 fN 0x3001) = true := by
  decide
theorem test_ld_V43 : gives (step (start 0x3000 0x21FF f0 [] [])) (ends 0 0x21FF fP 0x3001) = true := by decide
theorem test_ldi_V48 : gives (step (start 0x3000 0xA203 f0 [] [(0x3004, 0x3004)])) (ends 1 0x3004 fP 0x3001) = true := by
  decide
theorem test_ldi_V49 :
    gives (step (start 0x3000 0xA401 f0 [] [(0x3002, 0xFFFF), (0xFFFF, 0x8000)])) (ends 2 0x8000 fN 0x3001) = true := by
  decide
theorem test_ldr_V51 :
    gives (step (start 0x3000 0x6240 f0 [(1, 0x4000)] [(0x4000, 0xF00D)])) (ends 1 0xF00D fN 0x3001) = true := by decide
theorem test_ldr_V52 :
    gives (step (start 0x3000 0x6141 f0 [(5, 0xFFFF)] [(0, 0x42)])) (ends 0 0x42 fP 0x3001) = true := by decide
theorem test_lea_V58 : gives (step (start 0x7F00 0xEAFF f0 [] [])) (ends 5 0x8000 fN 0x7F01) = true := by decide
theorem test_lea_V59 : gives (step (start 0 0xEBFF f0 [(5, 0x1111)] [])) (ends 5 0 fZ 1) = true := by decide
theorem test_st_V60 :
    gives (step (start 0x3000 0x3604 fP [(3, 0xABCD)] []))
      (fun t => t.readMem 0x3005 == 0xABCD && ends 3 0xABCD fP 0x3001 t) = true := by decide
theorem test_st_V61 :
    gives (step (start 0x3000 0x37FF f0 [(3, 0x1111)] [])) (fun t => t.readMem 0x3000 == 0x1111 && t.ir == 0x37FF) = true := by
  decide
theorem test_sti_V63 :
    gives (step (start 0x3010 0xBBFC fN [(5, 0x42)] [(0x300D, 0x5000)]))
      (fun t => t.readMem 0x5000 == 0x42 && t.readMem 0x300D == 0x5000 && ends 5 0x42 fN 0x3011 t) = true := by decide
theorem test_sti_V64 :
    gives (step (start 0x3000 0xBA02 f0 [(5, 0x42)] [(0x3003, 0x3003)])) (fun t => t.readMem 0x3003 == 0x42) = true := by
  decide
theorem test_str_V67 :
    gives (step (start 0x3000 0x74A0 f0 [(2, 0x4000)] [])) (fun t => t.readMem 0x3FE0 == 0x4000) = true := by decide
theorem test_str_V68 :
    gives (step (start 0x3000 0x7281 f0 [(1, 0x5555), (2, 0xFFFF)] [])) (fun t => t.readMem 0 == 0x5555) = true := by decide
theorem test_trap_V69 : gives (step (start 0x3000 0xF025 fZ [] [(0x25, 0x400)])) (ends 7 0x3001 fZ 0x400) = true := by
  decide
theorem test_trap_V72 : gives (step (start 0x25 0xF025 f0 [] [])) (ends 7 0x26 f0 0xF025) = true := by decide
theorem test_invalidD_V73 :
    aborts (step (start 0x3000 0xD000 fP [(1, 0x1111)] [])) 0xD (fun t => t.ir == 0xD000 && ends 1 0x1111 fP 0x3001 t) = true := by
  decide
theorem test_invalid8_V74 :
    aborts (step (start 0x3000 0x8123 fN [] [])) 0x8 (fun t => t.ir == 0x8123 && ends 0 0 fN 0x3001 t) = true := by decide

/-! ## The host port (section 2.9) -/

-- H3, H4
theorem test_load_program_H3 :
    gives (loadProgram State.reset [0x1263, 0x5040, 0x0E01] 0x3000)
      (fun t => t.readMem 0x3000 == 0x1263 && t.readMem 0x3002 == 0x0E01 && t.readMem 0x3003 == 0 && t.pc == 0x3000) = true := by
  decide
theorem test_load_program_H4 :
    gives (loadProgram State.reset [0xABCD]) (fun t => t.readMem 0x3000 == 0xABCD && t.pc == 0x3000) = true := by decide
-- a word of 0x0000 written over another removes the entry: equal memories are equal data
theorem test_store_zero_restores_reset : ((State.reset.writeMem 0x4000 7).writeMem 0x4000 0).mem = [] := by decide
-- R163: R0 to R7, in order
theorem test_peek_registers : (peekRegisters (start 0 0 f0 [(7, 5)] [])).map Prod.snd = [0, 0, 0, 0, 0, 0, 0, 5] := by decide

-- R96: no request is taken during a run
theorem test_host_port_busy :
    (Fsm.reset.startRun none).peekPc = .refused .hostPortBusy ∧ (Fsm.reset.startRun none).rst = .refused .hostPortBusy ∧
    Fsm.reset.peekPc = .next 0 := ⟨rfl, rfl, rfl⟩

/-! ## Witnesses: each meets all hypotheses of the statement it is named after -/

theorem test_wit_IgnoredBitsTakeNoPart :
    (0x1642 : Word) &&& ~~~ (decode 0x1642).form.ignored = 0x165A &&& ~~~ (decode 0x1642).form.ignored := by decide
theorem test_wit_SignExtension_top_bit_clear :
    0 < 1 ∧ 1 ≤ 16 ∧ (0 : BitVec 1).getLsbD 0 = false ∧ 0 < 16 ∧ (0x7FFF : BitVec 16).getLsbD 15 = false := by decide
theorem test_wit_SignExtension_top_bit_set :
    (1 : BitVec 1).getLsbD 0 = true ∧ 2 ^ 0 ≤ (1 : BitVec 1).toNat ∧ (0x8000 : BitVec 16).getLsbD 15 = true ∧
    2 ^ 15 ≤ (0x8000 : BitVec 16).toNat := by decide
theorem test_wit_FlagsAreWrittenOnlyByTheSeven_sets :
    ∃ t, exec (.lea 7 0x1FF) State.reset = .next t ∧ setsFlags (Instr.lea 7 0x1FF).form = true := ⟨_, rfl, rfl⟩
theorem test_wit_FlagsAreWrittenOnlyByTheSeven_keeps :
    ∃ t, exec (.trap 0xFF) State.reset = .next t ∧ setsFlags (Instr.trap 0xFF).form = false := ⟨_, rfl, rfl⟩
theorem test_wit_FlagsAreReadOnlyByBr :
    ∃ t, (Instr.not 0 7).form ≠ .br ∧ exec (.not 0 7) State.reset = .next t := ⟨_, by decide, rfl⟩
theorem test_wit_OneFlagStaysSet_step :
    ∃ t, OneHot (start 0x3000 0x0E01 fP [] []) ∧ step (start 0x3000 0x0E01 fP [] []) = .next t := ⟨_, rfl, rfl⟩
theorem test_wit_OneFlagStaysSet_sets :
    ∃ t, setsFlags (Instr.ld 0 0).form = true ∧ exec (.ld 0 0) State.reset = .next t := ⟨_, rfl, rfl⟩
-- the decode clauses of the per-instruction statements: the row's lowest and highest word
theorem test_wit_operate_rows :
    (0x1000 : Word) &&& 0xF020 = 0x1000 ∧ (0x1FDF : Word) &&& 0xF020 = 0x1000 ∧
    (0x1020 : Word) &&& 0xF020 = 0x1020 ∧ (0x1FFF : Word) &&& 0xF020 = 0x1020 ∧
    (0x5000 : Word) &&& 0xF020 = 0x5000 ∧ (0x5FDF : Word) &&& 0xF020 = 0x5000 ∧
    (0x5020 : Word) &&& 0xF020 = 0x5020 ∧ (0x5FFF : Word) &&& 0xF020 = 0x5020 ∧
    (0x9000 : Word) &&& 0xF000 = 0x9000 ∧ (0x9FFF : Word) &&& 0xF000 = 0x9000 := by decide
theorem test_wit_control_rows :
    (0x0000 : Word) &&& 0xF000 = 0x0000 ∧ (0x0FFF : Word) &&& 0xF000 = 0x0000 ∧
    (0xC000 : Word) &&& 0xF000 = 0xC000 ∧ (0xCFFF : Word) &&& 0xF000 = 0xC000 ∧
    (0x4800 : Word) &&& 0xF800 = 0x4800 ∧ (0x4FFF : Word) &&& 0xF800 = 0x4800 ∧
    (0x4000 : Word) &&& 0xF800 = 0x4000 ∧ (0x47FF : Word) &&& 0xF800 = 0x4000 ∧
    (0xF000 : Word) &&& 0xF000 = 0xF000 ∧ (0xFFFF : Word) &&& 0xF000 = 0xF000 := by decide
theorem test_wit_memory_rows :
    (0x2000 : Word) &&& 0xF000 = 0x2000 ∧ (0x2FFF : Word) &&& 0xF000 = 0x2000 ∧
    (0xA000 : Word) &&& 0xF000 = 0xA000 ∧ (0xAFFF : Word) &&& 0xF000 = 0xA000 ∧
    (0x6000 : Word) &&& 0xF000 = 0x6000 ∧ (0x6FFF : Word) &&& 0xF000 = 0x6000 ∧
    (0xE000 : Word) &&& 0xF000 = 0xE000 ∧ (0xEFFF : Word) &&& 0xF000 = 0xE000 ∧
    (0x3000 : Word) &&& 0xF000 = 0x3000 ∧ (0x3FFF : Word) &&& 0xF000 = 0x3000 ∧
    (0xB000 : Word) &&& 0xF000 = 0xB000 ∧ (0xBFFF : Word) &&& 0xF000 = 0xB000 ∧
    (0x7000 : Word) &&& 0xF000 = 0x7000 ∧ (0x7FFF : Word) &&& 0xF000 = 0x7000 := by decide
theorem test_wit_Jsrr_both_cases : (6 : Reg) ≠ 7 ∧ (0 : Reg) ≠ 7 ∧ (7 : Reg) = 7 := by decide
theorem test_wit_CallsReturnThroughR7_jsr :
    ∃ t v, (Instr.jsr 0x7FF).form = .jsr ∧ exec (.jsr 0x7FF) State.reset = .next t ∧ t.readReg 7 = t.readReg 7 ∧
      exec (.jmp 7) t = .next v := ⟨_, _, rfl, rfl, rfl, rfl⟩
theorem test_wit_CallsReturnThroughR7_jsrr :
    ∃ t v, (Instr.jsrr 7).form = .jsrr ∧ exec (.jsrr 7) State.reset = .next t ∧ t.readReg 7 = t.readReg 7 ∧
      exec (.jmp 7) t = .next v := ⟨_, _, rfl, rfl, rfl, rfl⟩
theorem test_wit_CallsReturnThroughR7_trap :
    ∃ t v, (Instr.trap 0).form = .trap ∧ exec (.trap 0) State.reset = .next t ∧ t.readReg 7 = t.readReg 7 ∧
      exec (.jmp 7) t = .next v := ⟨_, _, rfl, rfl, rfl, rfl⟩
theorem test_wit_BranchBeforeAnyFlagFallsThrough :
    flagCount State.reset.cc = 0 ∧ 0 < flagCount (State.resetWith .zSet).cc := by decide
theorem test_wit_InvalidOpcode_8 : ∃ f, step (start 0 0x8FFF f0 [] []) = .fault f := ⟨_, rfl⟩
theorem test_wit_InvalidOpcode_D : ∃ f, step (start 0xFFFF 0xDFFF f0 [(7, 0xFF)] []) = .fault f := ⟨_, rfl⟩
theorem test_wit_StepRunsTheDecodedInstruction :
    decode ((start 0x3000 0xF025 f0 [] []).readMem (start 0x3000 0xF025 f0 [] []).pc) = .trap 0x25 := by decide
theorem test_wit_EveryValidFormCompletes :
    Instr.wellFormed (.sti 7 0x1FF) = true ∧ exec .invalidD State.reset = .fault (.invalidOpcode 0xD State.reset) :=
  ⟨rfl, rfl⟩
theorem test_wit_ExecuteChangesOnlyWhatItsRuleNames :
    ∃ t u, exec (.st 0 0) State.reset = .next t ∧ writesPc (Instr.st 0 0).form = false ∧
      setsFlags (Instr.st 0 0).form = false ∧ exec (.jmp 0) State.reset = .next u ∧
      writesMem (Instr.jmp 0).form = false := ⟨_, _, rfl, rfl, rfl, rfl, rfl⟩
theorem test_wit_ExecuteReadsOnlyTheListedRegisters :
    ∃ t, (State.reset.writeReg 5 9).pc = State.reset.pc ∧ (State.reset.writeReg 5 9).ir = State.reset.ir ∧
      (State.reset.writeReg 5 9).cc = State.reset.cc ∧ (State.reset.writeReg 5 9).mem = State.reset.mem ∧
      (∀ r ∈ regsRead (.addReg 0 1 2), (State.reset.writeReg 5 9).readReg r = State.reset.readReg r) ∧
      exec (.addReg 0 1 2) State.reset = .next t := ⟨_, rfl, rfl, rfl, rfl, by decide, rfl⟩
-- its memory clause: ST R0, #0 in the reset state stores at 0x0000; its neighbours on both sides are not stored to
theorem test_wit_ExecuteChangesOnly_memory :
    ∃ t, exec (.st 0 0) State.reset = .next t ∧ (∀ v, .write 1 v ∉ dataAccesses (.st 0 0) State.reset) ∧
      (∀ v, .write 0xFFFF v ∉ dataAccesses (.st 0 0) State.reset) :=
  ⟨_, rfl, fun _ h => absurd (List.mem_singleton.1 h) (by simp [pcRelative, sext, State.reset, State.resetWith]),
    fun _ h => absurd (List.mem_singleton.1 h) (by simp [pcRelative, sext, State.reset, State.resetWith])⟩
-- for PcAfterTheCycleIsAsTabled and MemoryChangesExactlyByTheListedWrites: a completed and an aborted cycle
theorem test_wit_stateAfter_completed : ∃ t, stateAfter (step (start 0xFFFF 0x3600 f0 [(3, 0x2222)] [])) = some t := ⟨_, rfl⟩
theorem test_wit_stateAfter_aborted : ∃ t, stateAfter (step (start 0 0x8FFF f0 [] [])) = some t := ⟨_, rfl⟩
-- V62: ST R3, #0 at 0xFFFF stores to the very next word, 0x0000
theorem test_wit_NextFetchSeesTheStore :
    ∃ t, step (start 0xFFFF 0x3600 f0 [(3, 0x2222)] []) = .next t ∧
      .write 0 0x2222 ∈ cycleAccesses (start 0xFFFF 0x3600 f0 [(3, 0x2222)] []) ∧ t.pc = 0 := ⟨_, rfl, by decide, rfl⟩
theorem test_wit_StepKeepsTheInvariant :
    ∃ t, StateInv (start 0x3000 0xBA02 fN [(5, 0x99)] []) ∧
      stateAfter (step (start 0x3000 0xBA02 fN [(5, 0x99)] [])) = some t := ⟨_, ⟨by decide, by decide⟩, rfl⟩
theorem test_wit_LoadedProgram_fits :
    (0xFFFF : Word).toNat + [(1 : Word)].length ≤ 65536 ∧
    ((0xFFFE : Word).toNat < (0xFFFF : Word).toNat ∨ (0xFFFF : Word).toNat + 1 ≤ (0xFFFE : Word).toNat) ∧
    ((2 : Word).toNat < (1 : Word).toNat ∨ (1 : Word).toNat + 1 ≤ (2 : Word).toNat) := by decide
theorem test_wit_LoadedProgram_does_not_fit :
    65536 < (0xFFFF : Word).toNat + [(1 : Word), 2].length ∧ 65536 < (0xFFFF : Word).toNat + 2 := by decide
theorem test_wit_LoadKeepsTheInvariant :
    ∃ t, StateInv State.reset ∧ loadProgram State.reset [1] 0xFFFF = .next t := ⟨_, ⟨by decide, by decide⟩, rfl⟩
theorem test_wit_StraightLineRun :
    ∃ t, run 1 (start 0xFFFF 0x1021 f0 [] []) = .next t ∧
      ∀ k u, k < 1 → run k (start 0xFFFF 0x1021 f0 [] []) = .next u →
        writesPc (decode (u.readMem u.pc)).form = false :=
  ⟨_, rfl, fun k u hk h => by obtain rfl : k = 0 := by omega
                              cases h; decide⟩
theorem test_wit_AbortedRun : ∃ f, run 1 (start 0xFFFF 0xDFFF f0 [(7, 0xFF)] []) = .fault f := ⟨_, rfl⟩
theorem test_wit_SequencerCycle : (Fsm.reset.startRun (some 1)).phase = .fetch ∧ 0 < 1 ∧ 1 < Fsm.cyclePhases .br := by decide
-- for SequencerRunIsTheRun and UnboundedRunNeverCompletes
theorem test_wit_Sequencer_idle : Fsm.reset.phase = .idle := by decide
-- the phase clauses and, within the first, a load that fits exactly and one that does not
theorem test_wit_HostPortIsUsableOnlyInIdle :
    Fsm.reset.phase = .idle ∧ transferFits 0xFFFF [(1 : Word)].length = true ∧
      transferFits 0xFFFF [(1 : Word), 2].length = false ∧ (Fsm.reset.startRun none).phase ≠ .idle := by decide
theorem test_wit_UnboundedRun_ends :
    (Fsm.ticks 3 (({ Fsm.reset with core := start 0 0x8FFF f0 [] [] } : Fsm).startRun none)).phase = .idle := by decide

end Sys2Proof.Tests
end

section
/-! The operand rules of 00_scope.md: sign and zero extension (R9), and addition under the signed reading (R8, R105). -/

namespace Sys2Proof.Proofs.Scope

open Sys2Proof Sys2Proof.Machine Sys2Proof.Safety

/-- The mask of R9: `0xFFFF` shifted left by `n` has exactly the bits from `n` up. -/
theorem getLsbD_highMask (n i : Nat) (hi : i < 16) :
    ((0xFFFF : Word) <<< n).getLsbD i = decide (n ≤ i) := by
  have ones : (0xFFFF : Word) = BitVec.allOnes 16 := by decide
  rw [ones, BitVec.getLsbD_shiftLeft, BitVec.getLsbD_allOnes]
  by_cases hn : n ≤ i
  · have hlt : i - n < 16 := by omega
    simp [hi, hn, hlt]
  · have hlt : i < n := by omega
    simp [hn, hlt]

/-- With the top bit set, sign extension copies that 1 into every bit the mask holds and keeps the field below. -/
theorem sext_eq_or_highMask {n : Nat} (f : BitVec n) (hmsb : f.msb = true) :
    sext f = zext f ||| ((0xFFFF : Word) <<< n) := by
  refine BitVec.eq_of_getLsbD_eq fun i hi => ?_
  rw [BitVec.getLsbD_or, getLsbD_highMask n i hi, sext, zext, BitVec.getLsbD_signExtend, BitVec.getLsbD_setWidth, hmsb]
  by_cases hn : i < n
  · have hle : ¬ n ≤ i := by omega
    simp [hn, hle]
  · have hle : n ≤ i := by omega
    simp [hn, hle, hi]

/-- In the lower half of the range the extended value is the field. -/
theorem sext_toNat_of_lt {n : Nat} (f : BitVec n) (h0 : 0 < n) (h16 : n ≤ 16) (hlow : f.toNat < 2 ^ (n - 1)) :
    (sext f).toNat = f.toNat := by
  rw [sext_toNat f h0 h16, sextNat, if_pos hlow]

/-- In the upper half of the range the extended value is the field minus `2 ^ n`, modulo 65536. -/
theorem sext_toNat_of_le {n : Nat} (f : BitVec n) (h0 : 0 < n) (h16 : n ≤ 16) (hhigh : 2 ^ (n - 1) ≤ f.toNat) :
    (sext f).toNat = (f.toNat + 65536 - 2 ^ n) % 65536 := by
  have hval : (sext f).toNat = f.toNat + 65536 - 2 ^ n := by
    rw [sext_toNat f h0 h16, sextNat, if_neg (Nat.not_lt.2 hhigh)]
  rw [← hval]
  exact (Nat.mod_eq_of_lt (sext f).isLt).symm

/-- Settles O8: the top bit tells the two halves of the field's range apart, the OR is read bit by bit, and the
subtraction is `sextNat`'s upper case. -/
theorem signExtensionOrsTheHighBits : Obligations.SignExtensionOrsTheHighBits := by
  unfold Obligations.SignExtensionOrsTheHighBits
  refine ⟨fun n f h0 h16 => ⟨fun htop => ?_, fun htop => ?_, sext_toNat_of_le f h0 h16, zext_toNat f h16⟩, by decide⟩
  · rw [BitVec.getLsbD_last, decide_eq_false_iff_not, Nat.not_le] at htop
    exact sext_toNat_of_lt f h0 h16 htop
  · exact sext_eq_or_highMask f (by rwa [BitVec.msb_eq_getLsbD_last])

/-- Settles O18: the destination holds the machine sum, whose signed reading is the wrapped sum of the signed
readings. -/
theorem additionAgreesWithTheSignedReading : Obligations.AdditionAgreesWithTheSignedReading := by
  unfold Obligations.AdditionAgreesWithTheSignedReading
  intro dr sr1 sr2 s
  refine ⟨s.writeResult dr (s.readReg sr1 + s.readReg sr2), rfl, ?_⟩
  rw [State.readReg_writeResult, if_pos rfl]
  exact BitVec.toInt_add _ _

end Sys2Proof.Proofs.Scope
end

section
/-! The state rules of 10_state.md: the flags (R26 to R28), what an instruction reads and changes (R22, R24, R32), memory
after a cycle (R52), and the invariant of R36. -/

namespace Sys2Proof.Proofs.StateRules

open Sys2Proof Sys2Proof.Machine Sys2Proof.Safety

/-! ## Flags -/

/-- `setcc` is one-hot, whatever the value (R27). -/
theorem flagCount_setcc (v : Word) : flagCount (setcc v) = 1 := by
  rcases setcc_cases v with ⟨-, h⟩ | ⟨-, -, h⟩ | ⟨-, -, h⟩ <;> rw [h] <;> rfl

/-- The flags after an instruction: those of some value for a flag-setting form, else those before it (R28). -/
theorem exec_next_cc {i : Instr} {s t : State} (h : exec i s = .next t) :
    (setsFlags i.form = true ∧ ∃ v, t.cc = setcc v) ∨ (setsFlags i.form = false ∧ t.cc = s.cc) := by
  rcases exec_next_shape h with ⟨_, v, ⟨hf, _⟩, rfl⟩ | ⟨_, _, ⟨hf, _⟩, rfl⟩ | ⟨_, ⟨hf, _⟩, rfl⟩ | ⟨_, ⟨hf, _⟩, rfl⟩ |
    ⟨_, ⟨hf, _⟩, rfl⟩
  · exact .inl ⟨hf, v, rfl⟩
  all_goals exact .inr ⟨hf, rfl⟩

/-- Settles O9: the three cases of `setcc` are the three ranges of the value, and the ranges are the signs of its signed
reading. -/
theorem setccSetsExactlyTheRightFlag : Obligations.SetccSetsExactlyTheRightFlag := by
  unfold Obligations.SetccSetsExactlyTheRightFlag
  intro v
  rcases setcc_cases v with ⟨rfl, h⟩ | ⟨-, hm, h⟩ | ⟨hv, hm, h⟩
  · rw [h]
    simp [FlagsOf, flagCount]
  · have hhigh : 32768 ≤ v.toNat := by simpa [BitVec.msb_eq_decide] using hm
    have hint : v.toInt = (v.toNat : Int) - 65536 := by simp [BitVec.toInt_eq_msb_cond, hm]
    have hlt := v.isLt
    refine ⟨?_, flagCount_setcc v, ?_⟩ <;> simp only [h, hint, FlagsOf, true_iff, false_iff, Bool.false_eq_true] <;>
      omega
  · have hlow : v.toNat < 32768 := by simpa [BitVec.msb_eq_decide] using hm
    have hint : v.toInt = v.toNat := by simp [BitVec.toInt_eq_msb_cond, hm]
    have hpos : 0 < v.toNat := Nat.pos_of_ne_zero fun h0 => hv (BitVec.eq_of_toNat_eq h0)
    refine ⟨?_, flagCount_setcc v, ?_⟩ <;> simp only [h, hint, FlagsOf, true_iff, false_iff, Bool.false_eq_true] <;>
      omega

/-- Settles O10: of the five shapes of a next state only the flag-setting result touches the flags, and there the
destination holds the value they are computed from. -/
theorem flagsAreWrittenOnlyByTheSeven : Obligations.FlagsAreWrittenOnlyByTheSeven := by
  unfold Obligations.FlagsAreWrittenOnlyByTheSeven
  intro i s t h
  rcases exec_next_shape h with ⟨d, v, ⟨hf, -, -, hw⟩, rfl⟩ | ⟨_, _, ⟨hf, _⟩, rfl⟩ | ⟨_, ⟨hf, _⟩, rfl⟩ |
    ⟨_, ⟨hf, _⟩, rfl⟩ | ⟨_, ⟨hf, _⟩, rfl⟩
  · refine ⟨fun _ => ⟨d, hw, ?_⟩, by simp [hf]⟩
    rw [State.readReg_writeResult, if_pos rfl, State.writeResult_cc]
  all_goals exact ⟨by simp [hf], fun _ => rfl⟩

/-- Settles O11: every operand and address of the other forms is taken from registers, PC and memory, so both runs compute
the same state but for flags that the form does not set. -/
theorem flagsAreReadOnlyByBr : Obligations.FlagsAreReadOnlyByBr := by
  unfold Obligations.FlagsAreReadOnlyByBr
  intro i s t c hbr h
  cases i with
  | br n z p off9 => exact absurd rfl hbr
  | invalid8 => cases h
  | invalidD => cases h
  | _ => cases h; rfl

/-- Settles O12: a flag-setting form makes the flags one-hot, any other leaves them as the fetch did. -/
theorem oneFlagStaysSet : Obligations.OneFlagStaysSet := by
  unfold Obligations.OneFlagStaysSet
  refine ⟨fun s t hs h => ?_, fun i s t hf h => ?_⟩
  · rcases exec_next_cc h with ⟨_, v, hv⟩ | ⟨_, hcc⟩
    · rw [OneHot, hv, flagCount_setcc]
    · rwa [OneHot, hcc, fetch_cc]
  · rcases exec_next_cc h with ⟨_, v, hv⟩ | ⟨hnot, _⟩
    · rw [OneHot, hv, flagCount_setcc]
    · simp [hf] at hnot

/-! ## The state and the memory an instruction leaves -/

/-- BR always completes; its condition decides only between two next states (R110). -/
theorem exec_br (n z p : Bool) (off9 : BitVec 9) (s : State) :
    exec (.br n z p off9) s = .next (if condMet n z p s.cc then s.setPc (pcRelative off9 s) else s) := rfl

/-- The state an instruction leaves: a completed routine's, or for an invalid opcode the one it started in (R84, R151). -/
theorem exec_stateAfter_cases {i : Instr} {s t : State} (h : stateAfter (exec i s) = some t) :
    exec i s = .next t ∨ ((i = .invalid8 ∨ i = .invalidD) ∧ t = s) := by
  cases he : exec i s with
  | next u => rw [he] at h; cases h; exact .inl rfl
  | fault f =>
    rw [he] at h
    rcases exec_fault_shape he with ⟨hi, rfl⟩ | ⟨hi, rfl⟩
    · cases h; exact .inr ⟨.inl hi, rfl⟩
    · cases h; exact .inr ⟨.inr hi, rfl⟩
  | refused r => rw [he] at h; cases h

/-- An instruction that completes makes its data accesses, in order, and no other change of memory (R52). -/
theorem exec_next_mem {i : Instr} {s t : State} (h : exec i s = .next t) :
    t.mem = (dataAccesses i s).foldl Access.applyTo s.mem := by
  cases i with
  | br n z p off9 =>
    rw [exec_br] at h
    cases h
    rw [apply_ite State.mem, State.setPc_mem, ite_self]
    rfl
  | invalid8 => cases h
  | invalidD => cases h
  | _ => cases h; rfl

/-- The same for a cycle's execute half however it ends: an invalid opcode accesses no data. -/
theorem exec_stateAfter_mem {i : Instr} {s t : State} (h : stateAfter (exec i s) = some t) :
    t.mem = (dataAccesses i s).foldl Access.applyTo s.mem := by
  rcases exec_stateAfter_cases h with h | ⟨rfl | rfl, rfl⟩
  · exact exec_next_mem h
  · rfl
  · rfl

/-- An address that no access of a list writes reads as before them. -/
theorem lookup_foldl_applyTo {a : Word} (xs : List Access) (m : Memory) (h : ∀ v, .write a v ∉ xs) :
    (xs.foldl Access.applyTo m).lookup a.toNat = m.lookup a.toNat := by
  induction xs generalizing m with
  | nil => rfl
  | cons x xs ih =>
    have hrest : ∀ v, .write a v ∉ xs := fun v hv => h v (List.mem_cons_of_mem _ hv)
    rw [List.foldl_cons, ih _ hrest]
    cases x with
    | read _ => rfl
    | write b v =>
      have hab : a.toNat ≠ b.toNat := fun hab => h v (BitVec.eq_of_toNat_eq hab ▸ List.mem_cons_self)
      rw [Access.applyTo, Memory.lookup_store, if_neg hab]

/-- Any list of accesses keeps the canonical form. -/
theorem wf_foldl_applyTo (xs : List Access) (m : Memory) (h : m.wf = true) : (xs.foldl Access.applyTo m).wf = true :=
  List.foldlRecOn (motive := fun m => m.wf = true) xs Access.applyTo h fun _ hm x _ => Access.wf_applyTo hm x

/-- Settles O45: the fetch read changes nothing, and the execute half makes exactly its data accesses. -/
theorem memoryChangesExactlyByTheListedWrites : Obligations.MemoryChangesExactlyByTheListedWrites := by
  unfold Obligations.MemoryChangesExactlyByTheListedWrites
  intro s t h
  exact exec_stateAfter_mem h

/-! ## The invariant -/

/-- Settles O49: memory is the old one with the cycle's accesses applied, each of which keeps the canonical form; the flags
are those of a value, and so one-hot, or the old ones. -/
theorem stepKeepsTheInvariant : Obligations.StepKeepsTheInvariant := by
  unfold Obligations.StepKeepsTheInvariant
  rintro s t ⟨hwf, hcc⟩ h
  refine ⟨?_, ?_⟩
  · rw [memoryChangesExactlyByTheListedWrites s t h]
    exact wf_foldl_applyTo _ _ hwf
  · rcases exec_stateAfter_cases h with hnext | ⟨_, rfl⟩
    · rcases exec_next_cc hnext with ⟨_, v, hv⟩ | ⟨_, hsame⟩
      · rw [hv, flagCount_setcc]
      · rwa [hsame, fetch_cc]
    · exact hcc

/-- Settles O48: reset memory is empty and either value of `CC_RESET` sets at most one flag. -/
theorem resetMeetsTheInvariant : Obligations.ResetMeetsTheInvariant := by
  unfold Obligations.ResetMeetsTheInvariant
  have hreset : ∀ c, StateInv (State.resetWith c) := fun c => ⟨wf_resetWith c, by cases c <;> decide⟩
  exact ⟨hreset _, hreset⟩

/-- Settles O51: a load that is not refused writes words one by one and sets PC, which neither memory's form nor the
flags depend on. -/
theorem loadKeepsTheInvariant : Obligations.LoadKeepsTheInvariant := by
  unfold Obligations.LoadKeepsTheInvariant
  rintro s t ws start ⟨hwf, hcc⟩ h
  unfold loadProgram at h
  split at h
  · cases h
    obtain ⟨-, -, -, hrest⟩ := writeWords_rest ws s start.toNat
    refine ⟨wf_writeWords ws s _ hwf, ?_⟩
    rwa [State.setPc_cc, hrest]
  · cases h

/-! ## What an instruction changes and reads -/

/-- An instruction leaves alone every general register it does not write (R22). -/
theorem exec_next_regsSameBut {i : Instr} {s t : State} (h : exec i s = .next t) :
    RegsSameBut (regsWritten i) s t := by
  intro r hr
  rcases exec_next_shape h with ⟨_, _, ⟨-, -, -, hw⟩, rfl⟩ | ⟨_, _, _, rfl⟩ | ⟨_, _, rfl⟩ | ⟨_, ⟨-, -, -, hw⟩, rfl⟩ |
    ⟨_, _, rfl⟩
  · rw [hw, List.mem_singleton] at hr
    rw [State.readReg_writeResult, if_neg hr]
  · rfl
  · rfl
  · rw [hw, List.mem_singleton] at hr
    rw [State.readReg_setPc, link_readReg, if_neg hr]
  · rfl

/-- Settles O40: the registers by the frame above, the words of memory by the list of accesses, the rest read off the five
shapes of a next state. -/
theorem executeChangesOnlyWhatItsRuleNames : Obligations.ExecuteChangesOnlyWhatItsRuleNames := by
  unfold Obligations.ExecuteChangesOnlyWhatItsRuleNames
  intro i s t h
  have hword : ∀ a, (∀ v, .write a v ∉ dataAccesses i s) → t.readMem a = s.readMem a := fun a ha => by
    rw [State.readMem, exec_next_mem h, lookup_foldl_applyTo _ _ ha, State.readMem]
  have hrest : t.ir = s.ir ∧ (writesPc i.form = false → t.pc = s.pc) ∧ (writesMem i.form = false → t.mem = s.mem) := by
    rcases exec_next_shape h with ⟨_, _, _, rfl⟩ | ⟨_, _, ⟨-, hm, -, -⟩, rfl⟩ | ⟨_, ⟨-, -, hp, -⟩, rfl⟩ |
      ⟨_, ⟨-, -, hp, -⟩, rfl⟩ | ⟨_, _, rfl⟩
    · exact ⟨rfl, fun _ => rfl, fun _ => rfl⟩
    · exact ⟨rfl, fun _ => rfl, by simp [hm]⟩
    · exact ⟨rfl, by simp [hp], fun _ => rfl⟩
    · exact ⟨rfl, by simp [hp], fun _ => rfl⟩
    · exact ⟨rfl, fun _ => rfl, fun _ => rfl⟩
  obtain ⟨hir, hpc, hmem⟩ := hrest
  exact ⟨exec_next_regsSameBut h, hir, hpc, hword, hmem, (flagsAreWrittenOnlyByTheSeven i s t h).2⟩

/-- JSRR goes to the base register, or with R7 to the link it has just written there (R113). -/
theorem jsrrTarget_eq (base : Reg) (s : State) :
    jsrrTarget Params.jsrrLinkFirst base s = if base = 7 then s.pc else s.readReg base :=
  link_readReg s base

/-- Two states agree in everything but the general registers, and in those listed. -/
structure SameOn (rs : List Reg) (s s' : State) : Prop where
  pc : s'.pc = s.pc
  ir : s'.ir = s.ir
  cc : s'.cc = s.cc
  mem : s'.mem = s.mem
  reg : ∀ r ∈ rs, s'.readReg r = s.readReg r

section SameOn
variable {rs : List Reg} {s s' : State}

theorem SameOn.readMem (h : SameOn rs s s') (a : Word) : s'.readMem a = s.readMem a := by
  rw [State.readMem, h.mem, State.readMem]

theorem SameOn.pcRelative (h : SameOn rs s s') {n : Nat} (off : BitVec n) :
    Machine.pcRelative off s' = Machine.pcRelative off s := by
  rw [Machine.pcRelative, h.pc, Machine.pcRelative]

theorem SameOn.indirect (h : SameOn rs s s') (off9 : BitVec 9) :
    Machine.indirect off9 s' = Machine.indirect off9 s := by
  rw [Machine.indirect, h.readMem, h.pcRelative, Machine.indirect]

theorem SameOn.baseOffset (h : SameOn rs s s') {base : Reg} (hb : base ∈ rs) (off6 : BitVec 6) :
    Machine.baseOffset base off6 s' = Machine.baseOffset base off6 s := by
  rw [Machine.baseOffset, h.reg base hb, Machine.baseOffset]

theorem SameOn.jsrrTarget (h : SameOn rs s s') {base : Reg} (hb : base ∈ rs) :
    Machine.jsrrTarget Params.jsrrLinkFirst base s' = Machine.jsrrTarget Params.jsrrLinkFirst base s := by
  rw [jsrrTarget_eq, jsrrTarget_eq, h.pc, h.reg base hb]

theorem SameOn.writeResult (h : SameOn rs s s') (d : Reg) {v v' : Word} (hv : v' = v) :
    SameOn [d] (s.writeResult d v) (s'.writeResult d v') := by
  subst hv
  refine ⟨h.pc, h.ir, rfl, h.mem, fun r hr => ?_⟩
  rw [State.readReg_writeResult, State.readReg_writeResult, if_pos (List.mem_singleton.1 hr),
    if_pos (List.mem_singleton.1 hr)]

theorem SameOn.writeMem (h : SameOn rs s s') {a a' v v' : Word} (ha : a' = a) (hv : v' = v) :
    SameOn [] (s.writeMem a v) (s'.writeMem a' v') := by
  subst ha hv
  exact ⟨h.pc, h.ir, h.cc, by rw [State.writeMem_mem, State.writeMem_mem, h.mem], nofun⟩

theorem SameOn.setPc (h : SameOn rs s s') {p p' : Word} (hp : p' = p) : SameOn rs (s.setPc p) (s'.setPc p') := by
  subst hp
  exact ⟨rfl, h.ir, h.cc, h.mem, h.reg⟩

theorem SameOn.link (h : SameOn rs s s') : SameOn [7] (Machine.link s) (Machine.link s') := by
  refine ⟨h.pc, h.ir, h.cc, h.mem, fun r hr => ?_⟩
  rw [link_readReg, link_readReg, if_pos (List.mem_singleton.1 hr), if_pos (List.mem_singleton.1 hr), h.pc]

/-- Agreement on nothing but PC, IR, flags and memory follows from agreement on any registers. -/
theorem SameOn.nil (h : SameOn rs s s') : SameOn [] s s' := ⟨h.pc, h.ir, h.cc, h.mem, nofun⟩

end SameOn

/-- From states that agree on the registers an instruction reads it goes to states that agree on those it writes (R22). -/
theorem exec_next_sameOn {i : Instr} {s s' t : State} (hs : SameOn (regsRead i) s s') (h : exec i s = .next t) :
    ∃ t', exec i s' = .next t' ∧ SameOn (regsWritten i) t t' := by
  cases i with
  | addReg dr sr1 sr2 =>
    cases h
    exact ⟨_, rfl, hs.writeResult dr (by rw [hs.reg sr1 List.mem_cons_self, hs.reg sr2 (by simp [regsRead])])⟩
  | andReg dr sr1 sr2 =>
    cases h
    exact ⟨_, rfl, hs.writeResult dr (by rw [hs.reg sr1 List.mem_cons_self, hs.reg sr2 (by simp [regsRead])])⟩
  | addImm dr sr1 imm5 => cases h; exact ⟨_, rfl, hs.writeResult dr (by rw [hs.reg sr1 List.mem_cons_self])⟩
  | andImm dr sr1 imm5 => cases h; exact ⟨_, rfl, hs.writeResult dr (by rw [hs.reg sr1 List.mem_cons_self])⟩
  | not dr sr => cases h; exact ⟨_, rfl, hs.writeResult dr (by rw [hs.reg sr List.mem_cons_self])⟩
  | br n z p off9 =>
    rw [exec_br] at h
    cases h
    refine ⟨_, exec_br n z p off9 s', ?_⟩
    rw [hs.cc]
    split
    · exact hs.setPc (hs.pcRelative off9)
    · exact hs
  | jmp base => cases h; exact ⟨_, rfl, hs.nil.setPc (hs.reg base List.mem_cons_self)⟩
  | jsr off11 => cases h; exact ⟨_, rfl, hs.link.setPc (hs.pcRelative off11)⟩
  | jsrr base => cases h; exact ⟨_, rfl, hs.link.setPc (hs.jsrrTarget List.mem_cons_self)⟩
  | trap vect8 => cases h; exact ⟨_, rfl, hs.link.setPc (hs.readMem _)⟩
  | ld dr off9 => cases h; exact ⟨_, rfl, hs.writeResult dr (by rw [hs.readMem, hs.pcRelative])⟩
  | ldi dr off9 => cases h; exact ⟨_, rfl, hs.writeResult dr (by rw [hs.readMem, hs.indirect])⟩
  | ldr dr base off6 =>
    cases h; exact ⟨_, rfl, hs.writeResult dr (by rw [hs.readMem, hs.baseOffset List.mem_cons_self])⟩
  | lea dr off9 => cases h; exact ⟨_, rfl, hs.writeResult dr (hs.pcRelative off9)⟩
  | st sr off9 => cases h; exact ⟨_, rfl, hs.writeMem (hs.pcRelative off9) (hs.reg sr List.mem_cons_self)⟩
  | sti sr off9 => cases h; exact ⟨_, rfl, hs.writeMem (hs.indirect off9) (hs.reg sr List.mem_cons_self)⟩
  | str sr base off6 =>
    cases h
    exact ⟨_, rfl, hs.writeMem (hs.baseOffset (by simp [regsRead]) off6) (hs.reg sr List.mem_cons_self)⟩
  | invalid8 => cases h
  | invalidD => cases h

/-- Settles O41: the two runs agree on what is written, and the registers not written are framed in the second run. -/
theorem executeReadsOnlyTheListedRegisters : Obligations.ExecuteReadsOnlyTheListedRegisters := by
  unfold Obligations.ExecuteReadsOnlyTheListedRegisters
  intro i s s' t hpc hir hcc hmem hreg h
  obtain ⟨t', ht', hsame⟩ := exec_next_sameOn ⟨hpc, hir, hcc, hmem, hreg⟩ h
  exact ⟨t', ht', hsame.pc, hsame.ir, hsame.cc, hsame.mem, hsame.reg, exec_next_regsSameBut ht'⟩

/-! ## PC after the cycle -/

/-- PC after the fetch, over the integers (R81). -/
theorem fetch_pc_eq_ofNat (s : State) : (fetch s).pc = BitVec.ofNat 16 (s.pc.toNat + 1) := by
  rw [fetch_pc, BitVec.ofNat_add, BitVec.ofNat_toNat, BitVec.setWidth_eq]
  rfl

/-- The PC-relative target after the fetch, over the integers (R24, D6). -/
theorem pcRelative_fetch_eq_ofNat {n : Nat} (off : BitVec n) (s : State) (h0 : 0 < n) (h16 : n ≤ 16) :
    pcRelative off (fetch s) = BitVec.ofNat 16 (s.pc.toNat + 1 + sextNat n off.toNat) := by
  rw [pcRelative, fetch_pc_eq_ofNat, ← sext_toNat off h0 h16, BitVec.ofNat_add _ (sext off).toNat,
    BitVec.ofNat_toNat 16 (sext off), BitVec.setWidth_eq]

/-- PC after the execute routine, form by form, is the table's entry (R24). -/
theorem exec_stateAfter_pc {i : Instr} {s t : State} (h : stateAfter (exec i (fetch s)) = some t) :
    t.pc = pcAfterCycle i s := by
  cases i with
  | br n z p off9 =>
    rw [exec_br] at h
    cases h
    rw [apply_ite State.pc, State.setPc_pc, pcRelative_fetch_eq_ofNat off9 s (by decide) (by decide),
      fetch_pc_eq_ofNat]
    rfl
  | jmp base => cases h; rfl
  | jsr off11 => cases h; exact pcRelative_fetch_eq_ofNat off11 s (by decide) (by decide)
  | jsrr base => cases h; exact (jsrrTarget_eq base (fetch s)).trans (by rw [fetch_pc_eq_ofNat]; rfl)
  | trap vect8 => cases h; exact congrArg s.readMem (BitVec.ofNat_toNat 16 vect8).symm
  | _ => cases h; exact fetch_pc_eq_ofNat s

/-- Settles O42: a cycle is the execute routine of the word fetched, run after the fetch. -/
theorem pcAfterTheCycleIsAsTabled : Obligations.PcAfterTheCycleIsAsTabled := by
  unfold Obligations.PcAfterTheCycleIsAsTabled
  intro s t h
  exact exec_stateAfter_pc h

end Sys2Proof.Proofs.StateRules
end

section
/-! The memory rules of 20_memory.md: a word written is read back (R44), the accesses of a cycle (R52, R57), what the next
fetch sees of a store (R54), and the sequencer's cycle as the step with those accesses (R90 to R97). -/

namespace Sys2Proof.Proofs.MemoryRules

open Sys2Proof Sys2Proof.Machine Sys2Proof.Safety

/-! ## Writes and reads -/

/-- Settles O43: a store is found at its own address only, and it is no register's. -/
theorem writtenWordIsReadBack : Obligations.WrittenWordIsReadBack := by
  unfold Obligations.WrittenWordIsReadBack
  intro s a v
  have hwrote : MemWrote a v s (s.writeMem a v) :=
    ⟨by rw [State.readMem_writeMem, if_pos rfl], fun b hb => by rw [State.readMem_writeMem, if_neg hb]⟩
  exact ⟨hwrote, fun _ _ => rfl, rfl, rfl, rfl⟩

/-- An instruction with a write among its data accesses is a store: it completes, and that write is all it does (R42). -/
theorem exec_eq_writeMem {i : Instr} {s : State} {a v : Word} (h : .write a v ∈ dataAccesses i s) :
    exec i s = .next (s.writeMem a v) := by
  cases i with
  | st sr off9 => cases List.mem_singleton.1 h; rfl
  | str sr base off6 => cases List.mem_singleton.1 h; rfl
  | sti sr off9 =>
    rcases List.mem_cons.1 h with h | h
    · cases h
    · cases List.mem_singleton.1 h; rfl
  | _ => simp [dataAccesses] at h

/-- Settles O46: the cycle's write is its last act, so the state it leaves is the fetched one with the word stored. -/
theorem nextFetchSeesTheStore : Obligations.NextFetchSeesTheStore := by
  unfold Obligations.NextFetchSeesTheStore
  intro s t a v hstep hmem
  have hdata : .write a v ∈ dataAccesses (decode (fetch s).ir) (fetch s) := by simpa [cycleAccesses] using hmem
  have ht : t = (fetch s).writeMem a v := by
    rw [step, exec_eq_writeMem hdata] at hstep
    cases hstep
    rfl
  have hread : t.readMem a = v := by rw [ht, State.readMem_writeMem, if_pos rfl]
  refine ⟨hread, fun hpc => ?_, ?_⟩
  · rw [fetch_ir, hpc, hread]
  · rw [ht, State.writeMem_ir, fetch_ir]

/-- Settles O44: the fetch read before the data accesses of the word fetched, counted form by form. -/
theorem accessCountsAreAsTabled : Obligations.AccessCountsAreAsTabled := by
  unfold Obligations.AccessCountsAreAsTabled
  intro s
  rw [cycleAccesses, fetch_ir]
  cases decode (s.readMem s.pc) <;> rfl

/-! ## The decoder's outputs -/

/-- The operands of an instruction are the fields of a word, the mode bit where two forms share an opcode included
(R61, R92). -/
def OperandsIn (w : Word) : Instr → Prop
  | .addReg dr sr1 sr2 | .andReg dr sr1 sr2 =>
    dr = regField w 9 ∧ sr1 = regField w 6 ∧ sr2 = regField w 0 ∧ bitAt w 5 = false
  | .addImm dr sr1 imm5 | .andImm dr sr1 imm5 =>
    dr = regField w 9 ∧ sr1 = regField w 6 ∧ imm5 = bitField w 0 5 ∧ bitAt w 5 = true
  | .not dr sr => dr = regField w 9 ∧ sr = regField w 6
  | .br n z p off9 => n = bitAt w 11 ∧ z = bitAt w 10 ∧ p = bitAt w 9 ∧ off9 = bitField w 0 9
  | .jmp base | .jsrr base => base = regField w 6
  | .jsr off11 => off11 = bitField w 0 11
  | .ld r off9 | .ldi r off9 | .lea r off9 | .st r off9 | .sti r off9 => r = regField w 9 ∧ off9 = bitField w 0 9
  | .ldr r base off6 | .str r base off6 => r = regField w 9 ∧ base = regField w 6 ∧ off6 = bitField w 0 6
  | .trap vect8 => vect8 = bitField w 0 8
  | .invalid8 | .invalidD => True

/-- The decoder takes every operand from its field (R72). -/
theorem operandsIn_decode (w : Word) : OperandsIn w (decode w) := by
  cases hop : opcodeOf w with
  | add | and => cases hmode : bitAt w 5 <;> simp [decode, hop, hmode, OperandsIn]
  | jsr => cases hmode : bitAt w 11 <;> simp [decode, hop, hmode, OperandsIn]
  | _ => simp [decode, hop, OperandsIn]

/-- The same of a word known to decode to an instruction. -/
theorem operandsIn_of_decode {w : Word} {i : Instr} (h : decode w = i) : OperandsIn w i := h ▸ operandsIn_decode w

/-- The two entries of the opcode table that the decoder marks are the two invalid opcodes (R67, R92). -/
theorem invalid_eq_opcodeTable (k : BitVec 4) :
    (k == 0x8#4 || k == 0xD#4) =
      (opcodeTable[k.toFin] == Opcode.invalid8 || opcodeTable[k.toFin] == Opcode.invalidD) := by
  decide +revert

/-- The decoder's `invalid` output is raised for exactly the words that decode to none of the seventeen forms (R92). -/
theorem instructionDecoder_invalid (w : Word) : (instructionDecoder w).invalid = !(decode w).wellFormed := by
  have h : (instructionDecoder w).invalid = (opcodeOf w == .invalid8 || opcodeOf w == .invalidD) :=
    invalid_eq_opcodeTable _
  rw [h]
  cases hop : opcodeOf w with
  | add | and => cases hmode : bitAt w 5 <;> simp [decode, hop, hmode, Instr.wellFormed, Instr.form]
  | jsr => cases hmode : bitAt w 11 <;> simp [decode, hop, hmode, Instr.wellFormed, Instr.form]
  | _ => simp [decode, hop, Instr.wellFormed, Instr.form]

/-! ## A stretch of phases -/

/-- A phase inside a cycle: neither its first nor one that follows its last. -/
abbrev Inside (p : Phase) : Prop := p ≠ .done ∧ p ≠ .error ∧ p ≠ .fetch

/-- In `k` phases the sequencer makes the accesses `xs` and comes to phase `p` with the state `t`, budget and report
untouched, and in between it is inside the cycle. -/
structure Leaves (m : Fsm) (k : Nat) (xs : List Access) (t : State) (p : Phase) : Prop where
  core : (Fsm.ticks k m).core = t
  phase : (Fsm.ticks k m).phase = p
  inside : ∀ j, 0 < j → j < k → Inside (Fsm.ticks j m).phase
  budget : (Fsm.ticks k m).budget = m.budget
  report : (Fsm.ticks k m).report = m.report
  accesses : Fsm.accesses k m = xs

section Leaves
variable {m : Fsm} {x : Option Access} {s t : State} {p q : Phase} {c : Word}

/-- A last phase. -/
theorem Leaves.last (htick : m.tick = { m with core := t, phase := p, captured := c }) (hport : m.memPort = x) :
    Leaves m 1 x.toList t p where
  core := congrArg Fsm.core htick
  phase := congrArg Fsm.phase htick
  inside j _ _ := by omega
  budget := (congrArg Fsm.budget htick :)
  report := (congrArg Fsm.report htick :)
  accesses := by rw [← hport]; exact List.append_nil _

/-- A phase before others. -/
theorem Leaves.cons {k : Nat} {xs : List Access} (htick : m.tick = { m with core := s, phase := q, captured := c })
    (hport : m.memPort = x) (hin : Inside q)
    (hrest : Leaves { m with core := s, phase := q, captured := c } k xs t p) :
    Leaves m (k + 1) (x.toList ++ xs) t p := by
  obtain ⟨hcore, hphase, hinside, hbudget, hreport, haccesses⟩ := htick ▸ hrest
  refine ⟨hcore, hphase, fun j hj hk => ?_, ?_, ?_, by rw [← hport]; exact congrArg _ haccesses⟩
  · match j with
    | 1 => exact (congrArg Fsm.phase htick).symm ▸ hin
    | j + 2 => exact hinside (j + 1) (by omega) (by omega)
  · rw [Fsm.ticks, hbudget, htick]
  · rw [Fsm.ticks, hreport, htick]

end Leaves

/-! ## The blocks in EXEC -/

section Datapath
variable {s : State}

/-- The second read port carries the register a store writes, and SR2 for every other form (R91, R93). -/
theorem rbData_eq {i : Instr} (h : decode s.ir = i) :
    rbData s = s.readReg (if (controlRow i.form).writesMem then regField s.ir 9 else regField s.ir 0) := by
  subst h; rfl

/-- The ALU's second input in immediate mode (R94 a). -/
theorem aluB_of_imm (h : bitAt s.ir 5 = true) : aluB s = sext (bitField s.ir 0 5) := if_pos h

/-- The ALU's second input in register mode (R94 a). -/
theorem aluB_of_reg (h : bitAt s.ir 5 = false) : aluB s = rbData s := if_neg (Bool.not_eq_true _ ▸ h)

/-- The next PC of BR: the PC-relative target if the condition holds (R95). -/
theorem pcNextExec_br (s : State) :
    pcNextExec s (controlRow .br) =
      if condMet (bitAt s.ir 11) (bitAt s.ir 10) (bitAt s.ir 9) s.cc then some (pcRelative (bitField s.ir 0 9) s)
      else none := rfl

/-- The next PC of JSRR: the target its routine takes, the link value where the base register is R7 (R95, R113). -/
theorem pcNextExec_jsrr (s : State) :
    pcNextExec s (controlRow .jsrr) = some (jsrrTarget Params.jsrrLinkFirst (regField s.ir 6) s) := by
  rw [StateRules.jsrrTarget_eq]
  by_cases h7 : regField s.ir 6 = 7
  · rw [if_pos h7]; exact if_pos (by simp [instructionDecoder, h7, Params.jsrrLinkFirst, Params.linkReg])
  · rw [if_neg h7]; exact if_neg (by simp [instructionDecoder, h7, Params.jsrrLinkFirst, Params.linkReg])

end Datapath

section Exec
variable {m : Fsm}

/-- DECODE accesses nothing, and turns to ERROR for what is none of the seventeen forms (R90, R93). -/
theorem tick_decode (hp : m.phase = .decode) :
    m.tick = { m with phase := if (decode m.core.ir).wellFormed then .exec else .error } ∧ m.memPort = none := by
  have hphase : m.nextPhase = if (decode m.core.ir).wellFormed then .exec else .error := by
    rw [Fsm.nextPhase, hp, instructionDecoder_invalid]
    cases (decode m.core.ir).wellFormed <;> rfl
  rw [← hphase]
  cases m; cases hp; exact ⟨rfl, rfl⟩

/-- EXEC accesses no memory (R90, R93). -/
theorem memPort_exec (hp : m.phase = .exec) : m.memPort = none := by
  rw [Fsm.memPort, hp]

/-- EXEC writes the register file only, and MEM1 follows where there is a data access (R90). -/
theorem tick_exec (hp : m.phase = .exec) :
    m.tick = { m with
      core := registerFileNext m.core m.regFileIn
      phase := if m.row.first = .none then .done else .mem1 } := by
  cases m; cases hp; rfl

/-- The control row is that of the instruction in IR (R97). -/
theorem row_eq {i : Instr} (h : decode m.core.ir = i) : m.row = controlRow i.form := by
  subst h; rfl

/-- EXEC of an operate instruction writes the ALU's output to DR and sets the flags from it (R94 c, d). -/
theorem registerFileNext_operate {op : AluOp} (hp : m.phase = .exec) (hrow : m.row = operateRow op) :
    registerFileNext m.core m.regFileIn = m.core.writeResult (regField m.core.ir 9) (aluY m.core (some op)) := by
  rw [Fsm.regFileIn, Fsm.writeDr, hp, hrow]; rfl

/-- EXEC of LEA writes the address adder's output to DR and sets the flags from it (R94 c, d). -/
theorem registerFileNext_lea (hp : m.phase = .exec) (hrow : m.row = controlRow .lea) :
    registerFileNext m.core m.regFileIn =
      m.core.writeResult (regField m.core.ir 9) (pcRelative (bitField m.core.ir 0 9) m.core) := by
  rw [Fsm.regFileIn, Fsm.writeDr, Fsm.writeDr, hp, hrow]; rfl

/-- EXEC of a form whose row writes the link puts `pc` in R7 and goes where the next-PC logic says (R94 c, R95). -/
theorem registerFileNext_link (hp : m.phase = .exec) (hw : m.row.regWrite = some .link) :
    registerFileNext m.core m.regFileIn = (link m.core).setPc ((pcNextExec m.core m.row).getD m.core.pc) := by
  rw [Fsm.regFileIn, hp, hw]; rfl

/-- EXEC of a form that writes no register in this phase writes at most PC (R94 c, R95). -/
theorem registerFileNext_noWrite (hp : m.phase = .exec) (hw : m.row.regWrite = none ∨ m.row.regWrite = some .rdata) :
    registerFileNext m.core m.regFileIn = m.core.setPc ((pcNextExec m.core m.row).getD m.core.pc) := by
  rcases hw with hw | hw <;> rw [Fsm.regFileIn, hp, hw] <;> rfl

/-- A form without a data access is completed by EXEC: the blocks then do what its routine does (R94, R95). -/
theorem exec_eq_registerFileNext {i : Instr} (hp : m.phase = .exec) (hd : decode m.core.ir = i)
    (hwf : i.wellFormed = true) (hfirst : (controlRow i.form).first = .none) :
    exec i m.core = .next (registerFileNext m.core m.regFileIn) := by
  have hrow := row_eq hd
  have hops := operandsIn_of_decode hd
  cases i with
  | addReg dr sr1 sr2 | andReg dr sr1 sr2 =>
    obtain ⟨rfl, rfl, rfl, hmode⟩ := hops
    rw [registerFileNext_operate hp hrow, aluY, aluB_of_reg hmode, rbData_eq hd]; rfl
  | addImm dr sr1 imm5 | andImm dr sr1 imm5 =>
    obtain ⟨rfl, rfl, rfl, hmode⟩ := hops
    rw [registerFileNext_operate hp hrow, aluY, aluB_of_imm hmode]; rfl
  | not dr sr =>
    obtain ⟨rfl, rfl⟩ := hops
    rw [registerFileNext_operate hp hrow]; rfl
  | lea dr off9 =>
    obtain ⟨rfl, rfl⟩ := hops
    rw [registerFileNext_lea hp hrow]; rfl
  | br n z p off9 =>
    obtain ⟨rfl, rfl, rfl, rfl⟩ := hops
    rw [registerFileNext_noWrite hp (.inl (by rw [hrow]; rfl)), hrow, StateRules.exec_br, Instr.form, pcNextExec_br]
    split <;> rfl
  | jmp base =>
    obtain rfl := hops
    rw [registerFileNext_noWrite hp (.inl (by rw [hrow]; rfl)), hrow]; rfl
  | jsr off11 =>
    obtain rfl := hops
    rw [registerFileNext_link hp (by rw [hrow]; rfl), hrow]; rfl
  | jsrr base =>
    obtain rfl := hops
    rw [registerFileNext_link hp (by rw [hrow]; rfl), hrow, Instr.form, pcNextExec_jsrr]; rfl
  | ld _ _ | ldi _ _ | ldr _ _ _ | st _ _ | sti _ _ | str _ _ _ | trap _ => cases hfirst
  | invalid8 | invalidD => cases hwf

/-- EXEC of a load or a store changes nothing: it only computes the address (R90). -/
theorem tick_exec_address (hp : m.phase = .exec) (hw : m.row.regWrite = none ∨ m.row.regWrite = some .rdata)
    (hpc : m.row.pc = .keep) (hfirst : m.row.first ≠ .none) : m.tick = { m with phase := .mem1 } := by
  rw [tick_exec hp, registerFileNext_noWrite hp hw, pcNextExec, hpc, if_neg hfirst]; rfl

/-- EXEC of TRAP writes the link (R90). -/
theorem tick_exec_trap (hp : m.phase = .exec) (hrow : m.row = controlRow .trap) :
    m.tick = { m with core := link m.core, phase := .mem1 } := by
  rw [tick_exec hp, registerFileNext_link hp (by rw [hrow]; rfl), hrow]; rfl

end Exec

/-! ## The phases with a data access -/

section Access
variable {m : Fsm} {a v : Word} {t : State}

/-- MEM1 captures the word it reads, and MEM2 follows where there is a second access (R90, R93). -/
theorem tick_mem1 (hp : m.phase = .mem1) :
    m.tick = { m with
      core := m.tick.core
      phase := if m.row.second = .none then .done else .mem2
      captured := m.rdata } := by
  cases m; cases hp; rfl

theorem tick_mem1_last (hp : m.phase = .mem1) (hsecond : m.row.second = .none) (hcore : m.tick.core = t) :
    m.tick = { m with core := t, phase := .done, captured := m.rdata } := by
  rw [tick_mem1 hp, hcore, if_pos hsecond]

/-- MEM2 is the last phase (R90). -/
theorem tick_mem2 (hp : m.phase = .mem2) (hcore : m.tick.core = t) :
    m.tick = { m with core := t, phase := .done } := by
  subst hcore
  cases m; cases hp; rfl

theorem rdata_of_read (hport : m.memPort = some (.read a)) : m.rdata = m.core.readMem a := by
  rw [Fsm.rdata, hport]

theorem memNext_of_read (hport : m.memPort = some (.read a)) : m.memNext = m.core.mem := by
  rw [Fsm.memNext, hport]; rfl

/-- A phase that reads and enables no port of the register file, as for a pointer, leaves the state as it is. -/
theorem tick_core_of_read (hport : m.memPort = some (.read a)) (hreg : m.regFileIn = .idle) : m.tick.core = m.core := by
  rw [Fsm.tick, hreg, memNext_of_read hport]; rfl

/-- A phase that writes memory and enables no port of the register file is `MemWrite` (R44). -/
theorem tick_core_of_write (hport : m.memPort = some (.write a v)) (hreg : m.regFileIn = .idle) :
    m.tick.core = m.core.writeMem a v := by
  rw [Fsm.tick, hreg, Fsm.memNext, hport]; rfl

/-- A phase that reads the datum of a load writes it to DR and sets the flags from it (R94 c, d). -/
theorem tick_core_of_load (hport : m.memPort = some (.read a)) (hreg : m.regFileIn = m.writeDr m.rdata)
    (hset : m.row.setsFlags = true) : m.tick.core = m.core.writeResult (regField m.core.ir 9) (m.core.readMem a) := by
  rw [Fsm.tick, hreg, Fsm.writeDr, hset, memNext_of_read hport, rdata_of_read hport]; rfl

/-- A phase that reads TRAP's vector writes it to PC (R95). -/
theorem tick_core_of_vector (hport : m.memPort = some (.read a))
    (hreg : m.regFileIn = { RegFileIn.idle with pc := some m.rdata }) :
    m.tick.core = m.core.setPc (m.core.readMem a) := by
  rw [Fsm.tick, hreg, memNext_of_read hport, rdata_of_read hport]; rfl

end Access

/-! ## From MEM1 or MEM2 to DONE -/

section FromMem
variable {m : Fsm} {ea : Option (EaBase × EaOff)} {v : Word}

/-- MEM1 of LD and LDR. -/
theorem leaves_mem1_load (hp : m.phase = .mem1)
    (hrow : m.row = ⟨none, ea, some .rdata, true, .keep, .readEa, .none⟩) :
    Leaves m 1 [.read (eaOut m.core ea)]
      (m.core.writeResult (regField m.core.ir 9) (m.core.readMem (eaOut m.core ea))) .done := by
  have hport : m.memPort = some (.read (eaOut m.core ea)) := by rw [Fsm.memPort, hp, hrow]
  have hreg : m.regFileIn = m.writeDr m.rdata := by rw [Fsm.regFileIn, hp, hrow]; rfl
  exact .last (tick_mem1_last hp (by rw [hrow]) (tick_core_of_load hport hreg (by rw [hrow]))) hport

/-- MEM1 of ST and STR. -/
theorem leaves_mem1_store (hp : m.phase = .mem1) (hrow : m.row = ⟨none, ea, none, false, .keep, .writeEa, .none⟩)
    (hv : memWdata m.core = v) :
    Leaves m 1 [.write (eaOut m.core ea) v] (m.core.writeMem (eaOut m.core ea) v) .done := by
  have hport : m.memPort = some (.write (eaOut m.core ea) v) := by rw [Fsm.memPort, hp, hrow, hv]
  have hreg : m.regFileIn = .idle := by rw [Fsm.regFileIn, hp, hrow]; rfl
  exact .last (tick_mem1_last hp (by rw [hrow]) (tick_core_of_write hport hreg)) hport

/-- MEM1 of TRAP. -/
theorem leaves_mem1_trap (hp : m.phase = .mem1) (hrow : m.row = controlRow .trap) :
    Leaves m 1 [.read (trapEntry (bitField m.core.ir 0 8))]
      (m.core.setPc (m.core.readMem (trapEntry (bitField m.core.ir 0 8)))) .done := by
  have hport : m.memPort = some (.read (trapEntry (bitField m.core.ir 0 8))) := by
    rw [Fsm.memPort, hp, hrow]; rfl
  have hreg : m.regFileIn = { RegFileIn.idle with pc := some m.rdata } := by rw [Fsm.regFileIn, hp, hrow]; rfl
  exact .last (tick_mem1_last hp (by rw [hrow]; rfl) (tick_core_of_vector hport hreg)) hport

/-- MEM1 of LDI and STI reads the pointer. -/
theorem tick_mem1_pointer {w : Option RegSource} {f : Bool} {n : SecondAccess} (hp : m.phase = .mem1)
    (hrow : m.row = ⟨none, some (.pc, .off9), w, f, .keep, .readEa, n⟩) (hn : n ≠ .none) :
    m.tick = { m with phase := .mem2, captured := indirect (bitField m.core.ir 0 9) m.core } ∧
      m.memPort = some (.read (pcRelative (bitField m.core.ir 0 9) m.core)) := by
  have hport : m.memPort = some (.read (pcRelative (bitField m.core.ir 0 9) m.core)) := by
    rw [Fsm.memPort, hp, hrow]; rfl
  have hreg : m.regFileIn = .idle := by rw [Fsm.regFileIn, hp, hrow]; simp [hn]
  refine ⟨?_, hport⟩
  rw [tick_mem1 hp, tick_core_of_read hport hreg, rdata_of_read hport, hrow, if_neg hn, indirect]

/-- MEM2 of LDI: the datum is read at the pointer captured in MEM1. -/
theorem leaves_mem2_load (hp : m.phase = .mem2) (hrow : m.row = controlRow .ldi) :
    Leaves m 1 [.read m.captured] (m.core.writeResult (regField m.core.ir 9) (m.core.readMem m.captured)) .done := by
  have hport : m.memPort = some (.read m.captured) := by rw [Fsm.memPort, hp, hrow]; rfl
  have hreg : m.regFileIn = m.writeDr m.rdata := by rw [Fsm.regFileIn, hp, hrow]; rfl
  exact .last (tick_mem2 hp (tick_core_of_load hport hreg (by rw [hrow]; rfl))) hport

/-- MEM2 of STI: the word is written at the pointer captured in MEM1. -/
theorem leaves_mem2_store (hp : m.phase = .mem2) (hrow : m.row = controlRow .sti) (hv : memWdata m.core = v) :
    Leaves m 1 [.write m.captured v] (m.core.writeMem m.captured v) .done := by
  have hport : m.memPort = some (.write m.captured v) := by rw [Fsm.memPort, hp, hrow, hv]; rfl
  have hreg : m.regFileIn = .idle := by rw [Fsm.regFileIn, hp, hrow]; rfl
  exact .last (tick_mem2 hp (tick_core_of_write hport hreg)) hport

end FromMem

/-! ## From EXEC to DONE -/

section FromExec
variable {m : Fsm} {ea : Option (EaBase × EaOff)} {v : Word}

/-- A form without a data access. -/
theorem leaves_noAccess (hp : m.phase = .exec) (hfirst : m.row.first = .none) :
    Leaves m 1 [] (registerFileNext m.core m.regFileIn) .done :=
  .last (by rw [tick_exec hp, if_pos hfirst]) (memPort_exec hp)

/-- LD and LDR. -/
theorem leaves_load (hp : m.phase = .exec) (hrow : m.row = ⟨none, ea, some .rdata, true, .keep, .readEa, .none⟩) :
    Leaves m 2 [.read (eaOut m.core ea)]
      (m.core.writeResult (regField m.core.ir 9) (m.core.readMem (eaOut m.core ea))) .done :=
  .cons (tick_exec_address hp (.inr (by rw [hrow])) (by rw [hrow]) (by rw [hrow]; nofun)) (memPort_exec hp)
    (by decide) (leaves_mem1_load rfl hrow)

/-- ST and STR. -/
theorem leaves_store (hp : m.phase = .exec) (hrow : m.row = ⟨none, ea, none, false, .keep, .writeEa, .none⟩)
    (hv : memWdata m.core = v) :
    Leaves m 2 [.write (eaOut m.core ea) v] (m.core.writeMem (eaOut m.core ea) v) .done :=
  .cons (tick_exec_address hp (.inl (by rw [hrow])) (by rw [hrow]) (by rw [hrow]; nofun)) (memPort_exec hp)
    (by decide) (leaves_mem1_store rfl hrow hv)

/-- TRAP. -/
theorem leaves_trap (hp : m.phase = .exec) (hrow : m.row = controlRow .trap) :
    Leaves m 2 [.read (trapEntry (bitField m.core.ir 0 8))]
      ((link m.core).setPc (m.core.readMem (trapEntry (bitField m.core.ir 0 8)))) .done :=
  .cons (tick_exec_trap hp hrow) (memPort_exec hp) (by decide) (leaves_mem1_trap rfl hrow)

/-- LDI and STI: MEM1 reads the pointer, which MEM2 finds captured (R90, R93). -/
theorem leaves_indirect {w : Option RegSource} {f : Bool} {n : SecondAccess} {x : Access} {t : State}
    (hp : m.phase = .exec) (hrow : m.row = ⟨none, some (.pc, .off9), w, f, .keep, .readEa, n⟩)
    (hw : w = none ∨ w = some .rdata) (hn : n ≠ .none)
    (hmem2 : Leaves { m with phase := .mem2, captured := indirect (bitField m.core.ir 0 9) m.core } 1 [x] t .done) :
    Leaves m 3 [.read (pcRelative (bitField m.core.ir 0 9) m.core), x] t .done := by
  have hexec : m.tick = { m with phase := .mem1 } :=
    tick_exec_address hp (by rwa [hrow]) (by rw [hrow]) (by rw [hrow]; nofun)
  obtain ⟨hmem1, hport⟩ := tick_mem1_pointer (m := { m with phase := .mem1 }) rfl hrow hn
  exact .cons hexec (memPort_exec hp) (by decide) (.cons hmem1 hport (by decide) hmem2)

/-- From EXEC every valid form comes to DONE in the phases left to it, with the next state and the accesses of its
routine. -/
theorem leaves_exec {i : Instr} (hp : m.phase = .exec) (hd : decode m.core.ir = i) (hwf : i.wellFormed = true) :
    ∃ k t, Fsm.cyclePhases i.form = k + 2 ∧ exec i m.core = .next t ∧ Leaves m k (dataAccesses i m.core) t .done := by
  have hrow := row_eq hd
  have hops := operandsIn_of_decode hd
  cases i with
  | ld dr off9 =>
    obtain ⟨rfl, rfl⟩ := hops
    exact ⟨2, _, rfl, rfl, leaves_load hp hrow⟩
  | ldr dr base off6 =>
    obtain ⟨rfl, rfl, rfl⟩ := hops
    exact ⟨2, _, rfl, rfl, leaves_load hp hrow⟩
  | st sr off9 =>
    obtain ⟨rfl, rfl⟩ := hops
    exact ⟨2, _, rfl, rfl, leaves_store hp hrow (rbData_eq hd)⟩
  | str sr base off6 =>
    obtain ⟨rfl, rfl, rfl⟩ := hops
    exact ⟨2, _, rfl, rfl, leaves_store hp hrow (rbData_eq hd)⟩
  | trap vect8 =>
    obtain rfl := hops
    exact ⟨2, _, rfl, rfl, leaves_trap hp hrow⟩
  | ldi dr off9 =>
    obtain ⟨rfl, rfl⟩ := hops
    exact ⟨3, _, rfl, rfl, leaves_indirect hp hrow (.inr rfl) nofun (leaves_mem2_load rfl hrow)⟩
  | sti sr off9 =>
    obtain ⟨rfl, rfl⟩ := hops
    exact ⟨3, _, rfl, rfl, leaves_indirect hp hrow (.inl rfl) nofun (leaves_mem2_store rfl hrow (rbData_eq hd))⟩
  | invalid8 | invalidD => cases hwf
  | _ => exact ⟨1, _, rfl, exec_eq_registerFileNext hp hd rfl rfl, leaves_noAccess hp (by rw [hrow]; rfl)⟩

end FromExec

/-! ## The whole cycle -/

/-- A cycle of a valid form: FETCH, DECODE, and its phases from EXEC on. -/
theorem leaves_cycle_valid {m : Fsm} {i : Instr} (h : m.phase = .fetch) (hd : decode (fetch m.core).ir = i)
    (hwf : i.wellFormed = true) :
    ∃ t, step m.core = .next t ∧ Leaves m (Fsm.cyclePhases i.form) (cycleAccesses m.core) t .done := by
  obtain ⟨hfetch, hport⟩ := Fsm.tick_fetch h
  obtain ⟨hdecode, hnone⟩ := tick_decode (m := { m with core := fetch m.core, phase := .decode }) rfl
  rw [hd, if_pos hwf] at hdecode
  obtain ⟨k, t, hk, hexec, hrest⟩ := leaves_exec (m := { m with core := fetch m.core, phase := .exec }) rfl hd hwf
  rw [step, cycleAccesses, hd, hk]
  exact ⟨t, hexec, .cons hfetch hport (by decide) (.cons hdecode hnone (by decide) hrest)⟩

/-- An invalid opcode stops in the state it started in, after two phases and with no data access (R150, R151). -/
theorem exec_invalid {i : Instr} (hwf : i.wellFormed = false) (s : State) :
    stateAfter (exec i s) = some s ∧ Fsm.cyclePhases i.form = 2 ∧ dataAccesses i s = [] := by
  cases i with
  | invalid8 | invalidD => exact ⟨rfl, rfl, rfl⟩
  | _ => cases hwf

/-- A cycle of an invalid opcode: FETCH, then DECODE turns to ERROR. -/
theorem leaves_cycle_invalid {m : Fsm} {i : Instr} (h : m.phase = .fetch) (hd : decode (fetch m.core).ir = i)
    (hwf : i.wellFormed = false) :
    stateAfter (step m.core) = some (fetch m.core) ∧
      Leaves m (Fsm.cyclePhases i.form) (cycleAccesses m.core) (fetch m.core) .error := by
  obtain ⟨hfetch, hport⟩ := Fsm.tick_fetch h
  obtain ⟨hdecode, hnone⟩ := tick_decode (m := { m with core := fetch m.core, phase := .decode }) rfl
  rw [hd, if_neg (by rw [hwf]; decide)] at hdecode
  obtain ⟨hstop, hphases, hdata⟩ := exec_invalid hwf (fetch m.core)
  rw [step, cycleAccesses, hd, hphases, hdata]
  exact ⟨hstop, .cons hfetch hport (by decide) (.last hdecode hnone)⟩

/-- A cycle, completed or aborted. -/
theorem leaves_cycle {m : Fsm} {i : Instr} (h : m.phase = .fetch) (hd : decode (fetch m.core).ir = i) :
    ∃ t, stateAfter (step m.core) = some t ∧
      Leaves m (Fsm.cyclePhases i.form) (cycleAccesses m.core) t (if i.wellFormed then .done else .error) := by
  cases hwf : i.wellFormed with
  | true =>
    obtain ⟨t, hstep, hcycle⟩ := leaves_cycle_valid h hd hwf
    exact ⟨t, by rw [hstep]; rfl, hcycle⟩
  | false => exact ⟨_, leaves_cycle_invalid h hd hwf⟩

/-- Settles O55: FETCH is the fetch step, DECODE sends the two invalid opcodes to ERROR, and from EXEC on each form's
phases do what its routine does. -/
theorem sequencerCycleIsTheStep : Obligations.SequencerCycleIsTheStep := by
  unfold Obligations.SequencerCycleIsTheStep
  intro m h i k
  obtain ⟨t, hstep, hcycle⟩ := leaves_cycle (i := i) h rfl
  exact ⟨by rw [hstep, hcycle.core], hcycle.phase, hcycle.inside, hcycle.budget, hcycle.report, hcycle.accesses⟩

end Sys2Proof.Proofs.MemoryRules
end

section
/-! The encoding rules of 30_encoding.md: fields and formulas (R61 to R66, R77), the decoder (R72), the rows of the opcode
table (R67, R71), the ignored bits (R69, R75), and the degenerate encodings of BR (R70). -/

namespace Sys2Proof.Proofs.Encoding

open Sys2Proof Sys2Proof.Machine Sys2Proof.Safety Sys2Proof.Proofs.MemoryRules

/-! ## Fields of a word -/

@[simp] theorem bitField_or (a b : Word) (lo n : Nat) :
    bitField (a ||| b) lo n = bitField a lo n ||| bitField b lo n :=
  BitVec.extractLsb'_or

@[simp] theorem bitField_ofNat (c lo n : Nat) :
    bitField (BitVec.ofNat 16 c) lo n = BitVec.ofNat n ((c % 65536) >>> lo) := by
  apply BitVec.eq_of_toNat_eq
  simp [bitField]

/-- A field is read back from where it was placed. -/
theorem bitField_place {n lo : Nat} (f : BitVec n) (h : lo + n ≤ 16) : bitField (place f lo) lo n = f := by
  refine BitVec.eq_of_getLsbD_eq fun i hi => ?_
  have hlt : lo + i < 16 := by omega
  rw [bitField, BitVec.getLsbD_extractLsb', BitVec.getLsbD_eq_getElem hlt, getElem_place]
  simp [hi]

/-- A field placed wholly below or wholly above another leaves that one's bits 0. -/
theorem bitField_place_apart {n lo lo' n' : Nat} (f : BitVec n) (h : lo + n ≤ lo' ∨ lo' + n' ≤ lo) :
    bitField (place f lo) lo' n' = 0 := by
  refine BitVec.eq_of_getLsbD_eq fun i hi => ?_
  rw [bitField, BitVec.getLsbD_extractLsb', place, BitVec.getLsbD_shiftLeft]
  rcases h with h | h
  · have hout : n ≤ lo' + i - lo := by omega
    simp [BitVec.getLsbD_of_ge f _ hout]
  · have hlow : lo' + i < lo := by omega
    simp [hlow]

/-- A field put back where it was read is the word under the field's mask. -/
theorem place_bitField (w : Word) (lo n : Nat) :
    place (bitField w lo n) lo = w &&& place (BitVec.allOnes n) lo := by
  refine BitVec.eq_of_getElem_eq fun i hi => ?_
  rw [BitVec.getElem_and, getElem_place, getElem_place, bitField, BitVec.getLsbD_extractLsb', BitVec.getLsbD_allOnes]
  by_cases hlo : lo ≤ i
  · rw [show lo + (i - lo) = i by omega, BitVec.getLsbD_eq_getElem hi]
    simp [hlo, Bool.and_comm]
  · simp [hlo]

theorem placeReg_regField (w : Word) (lo : Nat) :
    placeReg (regField w lo) lo = w &&& place (BitVec.allOnes 3) lo :=
  place_bitField w lo 3

theorem bitField_one (w : Word) (k : Nat) : bitField w k 1 = BitVec.ofBool (bitAt w k) := by
  refine BitVec.eq_of_getLsbD_eq fun i hi => ?_
  obtain rfl : i = 0 := by omega
  simp [bitField, bitAt]

theorem placeBit_bitAt (w : Word) (k : Nat) : placeBit (bitAt w k) k = w &&& place (BitVec.allOnes 1) k := by
  rw [placeBit, ← bitField_one, place_bitField]

/-! ## The formulas -/

theorem toNat_regBits (r : Reg) : (regBits r).toNat = r.val := rfl

/-- A field that fits loses no bit when it is placed. -/
theorem toNat_place {n lo : Nat} (f : BitVec n) (h : lo + n ≤ 16) : (place f lo).toNat = f.toNat * 2 ^ lo := by
  have hwidth : 2 ^ n ≤ 2 ^ 16 := Nat.pow_le_pow_right (by decide) (by omega)
  have hlt : f.toNat * 2 ^ lo < 2 ^ 16 :=
    calc f.toNat * 2 ^ lo < 2 ^ n * 2 ^ lo := Nat.mul_lt_mul_of_pos_right f.isLt (Nat.two_pow_pos lo)
      _ = 2 ^ (n + lo) := (Nat.pow_add 2 n lo).symm
      _ ≤ 2 ^ 16 := Nat.pow_le_pow_right (by decide) (by omega)
  rw [place, BitVec.toNat_shiftLeft, BitVec.toNat_setWidth, Nat.shiftLeft_eq,
    Nat.mod_eq_of_lt (Nat.lt_of_lt_of_le f.isLt hwidth), Nat.mod_eq_of_lt hlt]

/-- A field placed over bits that are 0 adds its value times the power of two of its lowest bit. -/
theorem toNat_or_place {w : Word} {n lo : Nat} (f : BitVec n) (h : lo + n ≤ 16) (hfree : bitField w lo n = 0) :
    (w ||| place f lo).toNat = w.toNat + f.toNat * 2 ^ lo := by
  have hmask : place (BitVec.allOnes n) lo &&& place f lo = place f lo := by
    rw [BitVec.and_comm, ← place_bitField, bitField_place f h]
  have hdisj : w &&& place f lo = 0 := by
    rw [← hmask, ← BitVec.and_assoc, ← place_bitField, hfree]
    simp [place]
  rw [← BitVec.add_eq_or_of_and_eq_zero _ _ hdisj, BitVec.toNat_add_of_and_eq_zero hdisj, toNat_place f h]

/-- Settles O4: in each form every field is placed over bits that the constant and the fields before it leave 0, so each OR
adds. -/
theorem encodeFollowsTheFormulas : Obligations.EncodeFollowsTheFormulas := by
  unfold Obligations.EncodeFollowsTheFormulas
  refine ⟨?_, ?_, ?_, ?_, ?_, ?_, ?_, ?_, ?_, ?_, ?_, ?_, ?_, ?_, ?_, ?_, ?_⟩ <;> intros <;>
    simp [encode, placeReg, placeBit, toNat_or_place, bitField_place_apart, toNat_place, toNat_regBits,
      -BitVec.toNat_or]

/-! ## The decoder -/

/-- The instruction of a form whose operands are the fields of a word (R61). -/
def readAs (w : Word) : Form → Instr
  | .addReg => .addReg (regField w 9) (regField w 6) (regField w 0)
  | .addImm => .addImm (regField w 9) (regField w 6) (bitField w 0 5)
  | .andReg => .andReg (regField w 9) (regField w 6) (regField w 0)
  | .andImm => .andImm (regField w 9) (regField w 6) (bitField w 0 5)
  | .not => .not (regField w 9) (regField w 6)
  | .br => .br (bitAt w 11) (bitAt w 10) (bitAt w 9) (bitField w 0 9)
  | .jmp => .jmp (regField w 6)
  | .jsr => .jsr (bitField w 0 11)
  | .jsrr => .jsrr (regField w 6)
  | .ld => .ld (regField w 9) (bitField w 0 9)
  | .ldi => .ldi (regField w 9) (bitField w 0 9)
  | .ldr => .ldr (regField w 9) (regField w 6) (bitField w 0 6)
  | .lea => .lea (regField w 9) (bitField w 0 9)
  | .st => .st (regField w 9) (bitField w 0 9)
  | .sti => .sti (regField w 9) (bitField w 0 9)
  | .str => .str (regField w 9) (regField w 6) (bitField w 0 6)
  | .trap => .trap (bitField w 0 8)
  | .invalid8 => .invalid8
  | .invalidD => .invalidD

/-- An instruction is fixed by its form and by the word its operands are read from. -/
theorem eq_readAs_of_operandsIn {w : Word} {i : Instr} (h : OperandsIn w i) : i = readAs w i.form := by
  cases i <;> simp_all [OperandsIn, readAs, Instr.form]

theorem decode_eq_readAs (w : Word) : decode w = readAs w (decode w).form :=
  eq_readAs_of_operandsIn (operandsIn_decode w)

/-- The encoder puts every operand where its form's field is read: the constant and the other fields are 0 there. -/
theorem readAs_encode (i : Instr) : readAs (encode i) i.form = i := by
  cases i <;>
    simp [readAs, encode, Instr.form, regField, placeReg, placeBit, bitField_place, bitField_place_apart, bitAt]

/-- The value of `w[15:12]` for each opcode (R67). -/
def opcodeValue : Opcode → BitVec 4
  | .br => 0x0 | .add => 0x1 | .ld => 0x2 | .st => 0x3 | .jsr => 0x4 | .and => 0x5 | .ldr => 0x6 | .str => 0x7
  | .invalid8 => 0x8 | .not => 0x9 | .ldi => 0xA | .sti => 0xB | .jmp => 0xC | .invalidD => 0xD | .lea => 0xE
  | .trap => 0xF

theorem opcodeValue_opcodeTable (k : BitVec 4) : opcodeValue opcodeTable[k.toFin] = k := by
  decide +revert

theorem bitField_opcode (w : Word) : bitField w 12 4 = opcodeValue (opcodeOf w) :=
  (opcodeValue_opcodeTable _).symm

/-! ## The fields by division -/

theorem toNat_bitField (w : Word) (lo n : Nat) : (bitField w lo n).toNat = fieldNat w lo n := by
  rw [bitField, BitVec.extractLsb'_toNat, Nat.shiftRight_eq_div_pow, fieldNat]

theorem bitField_eq_bitsAt (w : Word) (lo n : Nat) : bitField w lo n = bitsAt w lo n := by
  rw [bitsAt, ← toNat_bitField, BitVec.ofNat_toNat, BitVec.setWidth_eq]

theorem regField_eq_regAt (w : Word) (lo : Nat) : regField w lo = regAt w lo := by
  rw [regAt, ← toNat_bitField]
  exact Fin.ext (Nat.mod_eq_of_lt (bitField w lo 3).isLt).symm

theorem fieldNat_one (w : Word) (k : Nat) : fieldNat w k 1 = (bitAt w k).toNat := by
  rw [← toNat_bitField, bitField_one, BitVec.toNat_ofBool]

theorem bitAt_eq_flagAt (w : Word) (k : Nat) : bitAt w k = flagAt w k := by
  rw [flagAt, fieldNat_one]
  cases bitAt w k <;> rfl

/-- Settles O5: the fields read by division are the model's, and the opcode's number picks the same case as the table. -/
theorem decodeReadsTheFields : Obligations.DecodeReadsTheFields := by
  unfold Obligations.DecodeReadsTheFields
  intro w
  have hop4 : fieldNat w 12 4 = (opcodeValue (opcodeOf w)).toNat := by rw [← toNat_bitField, bitField_opcode]
  simp only [hop4, fieldNat_one, ← bitField_eq_bitsAt, ← regField_eq_regAt, ← bitAt_eq_flagAt]
  cases hop : opcodeOf w with
  | add | and => cases hmode : bitAt w 5 <;> simp [decode, hop, hmode, opcodeValue]
  | jsr => cases hmode : bitAt w 11 <;> simp [decode, hop, hmode, opcodeValue]
  | _ => simp [decode, hop, opcodeValue]

/-! ## The rows of the opcode table -/

/-- A word lies in a row: its bits under the row's mask are the row's match (R67). -/
def InRow (w : Word) (f : Form) : Prop := w &&& f.mask = f.pattern

/-- Under the mask of a row without a mode bit: the opcode. -/
theorem and_opcodeMask (w : Word) : w &&& 0xF000 = place (bitField w 12 4) 12 := by
  rw [place_bitField]
  rfl

/-- Under the mask of ADD's and AND's rows: the opcode and bit 5 (R63). -/
theorem and_immModeMask (w : Word) : w &&& 0xF020 = place (bitField w 12 4) 12 ||| placeBit (bitAt w 5) 5 := by
  rw [place_bitField, placeBit_bitAt, ← BitVec.and_or_distrib_left]
  rfl

/-- Under the mask of JSR's and JSRR's rows: the opcode and bit 11 (R63). -/
theorem and_jsrModeMask (w : Word) : w &&& 0xF800 = place (bitField w 12 4) 12 ||| placeBit (bitAt w 11) 11 := by
  rw [place_bitField, placeBit_bitAt, ← BitVec.and_or_distrib_left]
  rfl

/-- The opcode and the mode bit by which the decoder chooses the form are what the form's row fixes. -/
theorem decode_inRow (w : Word) : InRow w (decode w).form := by
  have hop4 := bitField_opcode w
  unfold InRow
  cases hop : opcodeOf w with
  | add | and =>
    cases hmode : bitAt w 5 <;>
      simp only [decode, hop, hmode, if_true, if_false, Bool.false_eq_true, Instr.form, Form.mask, and_immModeMask,
        hop4, opcodeValue] <;>
      rfl
  | jsr =>
    cases hmode : bitAt w 11 <;>
      simp only [decode, hop, hmode, if_true, if_false, Bool.false_eq_true, Instr.form, Form.mask, and_jsrModeMask,
        hop4, opcodeValue] <;>
      rfl
  | _ =>
    simp only [decode, hop, Instr.form, Form.mask, and_opcodeMask, hop4, opcodeValue]
    rfl

def allForms : List Form :=
  [.addReg, .addImm, .andReg, .andImm, .not, .br, .jmp, .jsr, .jsrr, .ld, .ldi, .ldr, .lea, .st, .sti, .str, .trap,
    .invalid8, .invalidD]

theorem mem_allForms (f : Form) : f ∈ allForms := by
  cases f <;> decide

/-- Any two rows differ in a bit that both their masks fix. -/
theorem eq_of_pattern_and_mask {f g : Form} (h : f.pattern &&& g.mask = g.pattern &&& f.mask) : f = g := by
  have table : ∀ f ∈ allForms, ∀ g ∈ allForms, f.pattern &&& g.mask = g.pattern &&& f.mask → f = g := by decide
  exact table f (mem_allForms f) g (mem_allForms g) h

theorem inRow_unique {w : Word} {f g : Form} (hf : InRow w f) (hg : InRow w g) : f = g := by
  apply eq_of_pattern_and_mask
  rw [← hf, ← hg, BitVec.and_assoc, BitVec.and_assoc, BitVec.and_comm f.mask]

theorem decode_form_iff (w : Word) (f : Form) : (decode w).form = f ↔ InRow w f :=
  ⟨fun h => h ▸ decode_inRow w, inRow_unique (decode_inRow w)⟩

/-- The decoder on a row's words: the row's form, with the word's fields as operands. -/
theorem decode_eq_of_inRow {w : Word} {f : Form} (h : InRow w f) : decode w = readAs w f := by
  rw [decode_eq_readAs, (decode_form_iff w f).2 h]

/-- Settles O6: a word lies in the row of the form it decodes to, and rows exclude each other. -/
theorem eachWordMatchesExactlyItsRow : Obligations.EachWordMatchesExactlyItsRow := by
  unfold Obligations.EachWordMatchesExactlyItsRow
  exact decode_form_iff

/-! ## The round trips -/

/-- The per-instruction facts of the encoder, for every instruction. -/
theorem encodedInRow (i : Instr) : Laws.EncodedInRow.Statement i := by
  cases i with
  | addReg dr sr1 sr2 => exact Laws.EncodedInRow.addReg dr sr1 sr2
  | addImm dr sr1 imm5 => exact Laws.EncodedInRow.addImm dr sr1 imm5
  | andReg dr sr1 sr2 => exact Laws.EncodedInRow.andReg dr sr1 sr2
  | andImm dr sr1 imm5 => exact Laws.EncodedInRow.andImm dr sr1 imm5
  | not dr sr => exact Laws.EncodedInRow.not dr sr
  | br n z p off9 => exact Laws.EncodedInRow.br n z p off9
  | jmp base => exact Laws.EncodedInRow.jmp base
  | jsr off11 => exact Laws.EncodedInRow.jsr off11
  | jsrr base => exact Laws.EncodedInRow.jsrr base
  | ld dr off9 => exact Laws.EncodedInRow.ld dr off9
  | ldi dr off9 => exact Laws.EncodedInRow.ldi dr off9
  | ldr dr base off6 => exact Laws.EncodedInRow.ldr dr base off6
  | lea dr off9 => exact Laws.EncodedInRow.lea dr off9
  | st sr off9 => exact Laws.EncodedInRow.st sr off9
  | sti sr off9 => exact Laws.EncodedInRow.sti sr off9
  | str sr base off6 => exact Laws.EncodedInRow.str sr base off6
  | trap vect8 => exact Laws.EncodedInRow.trap vect8
  | invalid8 => exact Laws.EncodedInRow.invalid8
  | invalidD => exact Laws.EncodedInRow.invalidD

theorem encode_inRow (i : Instr) : InRow (encode i) i.form := (encodedInRow i).1

/-- Settles O2: the encoded word lies in its instruction's row, so it decodes to that form with the fields of the word,
which are the operands encoded. -/
theorem decodeInvertsEncode : Obligations.DecodeInvertsEncode := by
  unfold Obligations.DecodeInvertsEncode
  intro i
  rw [decode_eq_of_inRow (encode_inRow i), readAs_encode]

/-- Mask and fields of a row make up every bit the form does not ignore, so encoding what a word of the row holds gives
these bits back, with R75's fill in the others. -/
theorem encode_readAs {w : Word} {f : Form} (h : InRow w f) :
    encode (readAs w f) = (w &&& ~~~ f.ignored) ||| f.ignoredFill := by
  have hword : ∀ c fields, f.pattern ||| f.ignoredFill = c → f.mask ||| fields = ~~~ f.ignored →
      c ||| (w &&& fields) = (w &&& ~~~ f.ignored) ||| f.ignoredFill := by
    intro c fields hc hkept
    rw [← hc, ← hkept, BitVec.and_or_distrib_left, h]
    ac_rfl
  cases f with
  | br =>
    simp only [readAs, encode, placeBit_bitAt, place_bitField, ← BitVec.and_or_distrib_left]
    exact BitVec.zero_or.symm.trans (hword 0 _ rfl rfl)
  | invalid8 | invalidD => exact BitVec.or_zero.symm.trans (BitVec.and_zero ▸ hword _ 0 rfl rfl)
  | _ =>
    simp only [readAs, encode, placeReg_regField, place_bitField, BitVec.or_assoc, ← BitVec.and_or_distrib_left]
    exact hword _ _ rfl rfl

/-- Settles O3: a word lies in the row of its form and decodes to its own fields. -/
theorem encodeOfDecodeIsTheCanonicalWord : Obligations.EncodeOfDecodeIsTheCanonicalWord := by
  unfold Obligations.EncodeOfDecodeIsTheCanonicalWord
  intro w
  rw [← encode_readAs (decode_inRow w), ← decode_eq_readAs]

/-! ## The ignored bits -/

/-- A row's mask fixes none of the bits its form ignores. -/
theorem not_ignored_and_mask (f : Form) : ~~~ f.ignored &&& f.mask = f.mask := by
  cases f <;> decide

section Agree
variable {w w' : Word} {f : Form} (h : w &&& ~~~ f.ignored = w' &&& ~~~ f.ignored)
include h

theorem inRow_of_agree (hw : InRow w f) : InRow w' f := by
  rw [InRow, ← not_ignored_and_mask, ← BitVec.and_assoc, ← h, BitVec.and_assoc, not_ignored_and_mask, hw]

/-- Both words have the same canonical word, and so hold the same instruction. -/
theorem decode_eq_of_agree (hw : InRow w f) : decode w' = decode w := by
  have hw' : InRow w' f := inRow_of_agree h hw
  have hsame : encode (readAs w' f) = encode (readAs w f) := by rw [encode_readAs hw', encode_readAs hw, h]
  calc decode w' = readAs w' f := decode_eq_of_inRow hw'
    _ = decode (encode (readAs w' f)) := (decodeInvertsEncode _).symm
    _ = readAs w f := by rw [hsame, decodeInvertsEncode]
    _ = decode w := (decode_eq_of_inRow hw).symm

end Agree

/-- Settles O7: a word's ignored bits are neither in its row's mask nor in its canonical word, so decoding does not see
them, and execution sees only the decoded instruction. -/
theorem ignoredBitsTakeNoPart : Obligations.IgnoredBitsTakeNoPart := by
  unfold Obligations.IgnoredBitsTakeNoPart
  refine ⟨by decide, fun w w' h => ?_⟩
  have hsame : decode w' = decode w := decode_eq_of_agree h (decode_inRow w)
  exact ⟨hsame, fun s => by rw [hsame]⟩

/-! ## The degenerate encodings of BR -/

theorem condMet_of_flagCount_zero {c : Flags} (h : flagCount c = 0) (n z p : Bool) : condMet n z p c = false := by
  obtain ⟨cn, cz, cp⟩ := c
  obtain ⟨rfl, rfl, rfl⟩ : cn = false ∧ cz = false ∧ cp = false := by simpa [flagCount, and_assoc] using h
  simp [condMet]

/-- With all three condition bits the condition is that some flag is set. -/
theorem condMet_all (c : Flags) : condMet true true true c = decide (0 < flagCount c) := by
  obtain ⟨n, z, p⟩ := c
  cases n <;> cases z <;> cases p <;> rfl

/-- Settles O25: BR's condition is false without a flag or without a condition bit, and true with all three bits and a
flag. -/
theorem branchBeforeAnyFlagFallsThrough : Obligations.BranchBeforeAnyFlagFallsThrough := by
  unfold Obligations.BranchBeforeAnyFlagFallsThrough
  refine ⟨fun n z p off9 s h => ?_, fun off9 s => rfl, fun off9 s h => ?_⟩
  · rw [StateRules.exec_br, condMet_of_flagCount_zero h, if_neg Bool.false_ne_true]
  · rw [StateRules.exec_br, condMet_all, if_pos (decide_eq_true h)]

end Sys2Proof.Proofs.Encoding
end

section
/-! The instruction cycle of 40_instruction_cycle.md: the fetch (R81), one step and its two outcomes (R84, R150), a run of
several (R85, R86), the decoder block (R92), the run on the sequencer (R90), and the host port (R96). -/

namespace Sys2Proof.Proofs.InstructionCycle

open Sys2Proof Sys2Proof.Machine Sys2Proof.Safety Sys2Proof.Proofs.MemoryRules Sys2Proof.Proofs.Encoding

/-! ## The decoder block -/

/-- Settles O58: `invalid` is raised for the two opcodes of the invalid forms, and `op` is the field at bit 12. -/
theorem decoderFlagsExactlyTheInvalidOpcodes : Obligations.DecoderFlagsExactlyTheInvalidOpcodes := by
  unfold Obligations.DecoderFlagsExactlyTheInvalidOpcodes
  exact fun w => ⟨instructionDecoder_invalid w, toNat_bitField w 12 4⟩

/-- A word that is none of the seventeen forms has opcode 0x8 or 0xD and decodes to its constructor (R68, R72). -/
theorem opcode_of_not_wellFormed {w : Word} (h : (decode w).wellFormed = false) :
    (bitField w 12 4 = 0x8 ∧ decode w = .invalid8) ∨ (bitField w 12 4 = 0xD ∧ decode w = .invalidD) := by
  have hflag : (instructionDecoder w).invalid = true := by rw [instructionDecoder_invalid, h, Bool.not_false]
  have hop : bitField w 12 4 = 0x8 ∨ bitField w 12 4 = 0xD := by simpa [instructionDecoder] using hflag
  have hrow : ∀ {f : Form}, f.mask = 0xF000 → place (bitField w 12 4) 12 = f.pattern → decode w = readAs w f :=
    fun hmask hpattern => decode_eq_of_inRow (by rw [InRow, hmask, and_opcodeMask, hpattern])
  rcases hop with h8 | hD
  · exact .inl ⟨h8, hrow (f := .invalid8) rfl (by rw [h8]; rfl)⟩
  · exact .inr ⟨hD, hrow (f := .invalidD) rfl (by rw [hD]; rfl)⟩

/-! ## One step -/

/-- Settles O37: the word decoded is the one the fetch leaves in IR. -/
theorem stepRunsTheDecodedInstruction : Obligations.StepRunsTheDecodedInstruction := by
  unfold Obligations.StepRunsTheDecodedInstruction
  rintro s _ rfl
  rfl

section Step
variable {s t : State} {f : Fault}

/-- A valid form completes in every state (R153). -/
theorem exec_of_wellFormed {i : Instr} (h : i.wellFormed = true) (s : State) : ∃ t, exec i s = .next t := by
  cases i with
  | invalid8 | invalidD => cases h
  | _ => exact ⟨_, rfl⟩

/-- The two outcomes of a step: a valid form completes, and for any other word the error carries its opcode and the state
the fetch leaves (R84, R150). -/
theorem step_cases (s : State) :
    ((decode (s.readMem s.pc)).wellFormed = true ∧ ∃ t, step s = .next t) ∨
      ((decode (s.readMem s.pc)).wellFormed = false ∧
        step s = .fault (.invalidOpcode (bitField (s.readMem s.pc) 12 4) (fetch s))) := by
  cases hwf : (decode (s.readMem s.pc)).wellFormed with
  | true => exact .inl ⟨rfl, exec_of_wellFormed hwf (fetch s)⟩
  | false =>
    refine .inr ⟨rfl, ?_⟩
    rcases opcode_of_not_wellFormed hwf with ⟨hop, hd⟩ | ⟨hop, hd⟩ <;> rw [step, fetch_ir, hd, hop] <;> rfl

/-- A step that completes has fetched a valid form. -/
theorem wellFormed_of_step_next (h : step s = .next t) : (decode (s.readMem s.pc)).wellFormed = true := by
  rcases step_cases s with ⟨hwf, -⟩ | ⟨-, hstop⟩
  · exact hwf
  · cases hstop.symm.trans h

/-- A step that stops has fetched none, and its error carries the opcode and the state the fetch leaves. -/
theorem step_fault (h : step s = .fault f) :
    (decode (s.readMem s.pc)).wellFormed = false ∧
      f = .invalidOpcode (bitField (s.readMem s.pc) 12 4) (fetch s) := by
  rcases step_cases s with ⟨-, t, hnext⟩ | ⟨hwf, hstop⟩
  · cases hnext.symm.trans h
  · cases hstop.symm.trans h
    exact ⟨hwf, rfl⟩

/-- No step is refused (R153). -/
theorem step_ne_refused (s : State) (r : Refusal) : step s ≠ .refused r := by
  rcases step_cases s with ⟨-, t, hnext⟩ | ⟨-, hstop⟩
  · rw [hnext]; nofun
  · rw [hstop]; nofun

/-- A completed cycle leaves the word it fetched in IR (R25). -/
theorem step_next_ir (h : step s = .next t) : t.ir = s.readMem s.pc := by
  obtain ⟨-, hir, -⟩ := StateRules.executeChangesOnlyWhatItsRuleNames _ _ _ h
  exact hir

/-- A completed cycle without a control transfer goes to the next word (R24 a). -/
theorem step_next_pc (h : step s = .next t) (hw : writesPc (decode (s.readMem s.pc)).form = false) :
    t.pc = s.pc + 1 := by
  obtain ⟨-, -, hpc, -⟩ := StateRules.executeChangesOnlyWhatItsRuleNames _ _ _ h
  exact hpc hw

end Step

/-- Settles O39: the word at PC is a valid form or has one of the two invalid opcodes. -/
theorem stepCompletesOrRaisesInvalidOpcode : Obligations.StepCompletesOrRaisesInvalidOpcode := by
  unfold Obligations.StepCompletesOrRaisesInvalidOpcode
  intro s
  rcases step_cases s with ⟨hwf, t, hnext⟩ | ⟨hwf, hstop⟩
  · rw [if_pos hwf]
    exact ⟨t, hnext, step_next_ir hnext⟩
  · rw [if_neg (Bool.not_eq_true _ ▸ hwf)]
    exact ⟨_, hstop⟩

/-- The next address, over the integers (R10). -/
theorem toNat_add_one (a : Word) : (a + 1).toNat = (a.toNat + 1) % 65536 := BitVec.toNat_add a 1

/-- Settles O36: the fetch writes IR and PC only, and a step that stops hands out the state the fetch left. -/
theorem fetchLoadsIrAndAdvancesPc : Obligations.FetchLoadsIrAndAdvancesPc := by
  unfold Obligations.FetchLoadsIrAndAdvancesPc
  refine fun s => ⟨fetch_ir s, toNat_add_one s.pc, fun r _ => fetch_readReg s r, fetch_cc s, fetch_readMem s,
    fun op t h => ?_⟩
  obtain ⟨-, hf⟩ := step_fault h
  cases hf
  rfl

/-! ## Runs -/

section Run
variable {n : Nat} {s t u : State} {f : Fault}

theorem run_succ_of_next (h : step s = .next t) : run (n + 1) s = run n t := by
  rw [run, h]

theorem run_succ_of_fault (h : step s = .fault f) : run (n + 1) s = .fault f := by
  rw [run, h]

/-- A run that completes has completed its first cycle. -/
theorem run_succ_next (h : run (n + 1) s = .next u) : ∃ t, step s = .next t ∧ run n t = .next u := by
  cases hs : step s with
  | next t => exact ⟨t, rfl, (run_succ_of_next hs).symm.trans h⟩
  | fault f => cases (run_succ_of_fault hs).symm.trans h
  | refused r => exact absurd hs (step_ne_refused s r)

/-- A run that stops does so in its first cycle or after it. -/
theorem run_succ_fault (h : run (n + 1) s = .fault f) :
    step s = .fault f ∨ ∃ t, step s = .next t ∧ run n t = .fault f := by
  cases hs : step s with
  | next t => exact .inr ⟨t, rfl, (run_succ_of_next hs).symm.trans h⟩
  | fault g => exact .inl ((run_succ_of_fault hs).symm.trans h)
  | refused r => exact absurd hs (step_ne_refused s r)

end Run

/-- Settles O53, by induction on the number of cycles: the first adds one to PC, and the others are a straight-line run
from the state it leaves. -/
theorem straightLineRunAdvancesPcByItsSteps : Obligations.StraightLineRunAdvancesPcByItsSteps := by
  unfold Obligations.StraightLineRunAdvancesPcByItsSteps
  intro n
  induction n with
  | zero =>
    intro s t hrun _
    cases hrun
    exact (Nat.mod_eq_of_lt s.pc.isLt).symm
  | succ n ih =>
    intro s t hrun hline
    obtain ⟨u, hstep, hrest⟩ := run_succ_next hrun
    have hfirst : u.pc = s.pc + 1 := step_next_pc hstep (hline 0 s n.succ_pos rfl)
    have hothers := ih u t hrest fun k v hk hv =>
      hline (k + 1) v (Nat.succ_lt_succ hk) ((run_succ_of_next hstep).trans hv)
    rw [hothers, hfirst, toNat_add_one]
    omega

/-- A run that stops has completed some cycles, and the next one stops (R86). -/
theorem run_fault {n : Nat} {s : State} {f : Fault} (h : run n s = .fault f) :
    ∃ k u, k < n ∧ run k s = .next u ∧ step u = .fault f := by
  induction n generalizing s with
  | zero => cases h
  | succ n ih =>
    rcases run_succ_fault h with hstop | ⟨t, hstep, hrest⟩
    · exact ⟨0, s, n.succ_pos, rfl, hstop⟩
    · obtain ⟨k, u, hk, hrun, hstop⟩ := ih hrest
      exact ⟨k + 1, u, Nat.succ_lt_succ hk, (run_succ_of_next hstep).trans hrun, hstop⟩

/-- Settles O54: the run stops with the error of its last cycle, which has done the fetch and nothing more. -/
theorem abortedRunStopsAtTheOffendingWord : Obligations.AbortedRunStopsAtTheOffendingWord := by
  unfold Obligations.AbortedRunStopsAtTheOffendingWord
  intro n s f h
  obtain ⟨k, u, hk, hrun, hstop⟩ := run_fault h
  obtain ⟨hwf, rfl⟩ := step_fault hstop
  have hop : bitField (u.readMem u.pc) 12 4 = 0x8 ∨ bitField (u.readMem u.pc) 12 4 = 0xD :=
    (opcode_of_not_wellFormed hwf).imp And.left And.left
  exact ⟨k, u, _, hk, hrun, rfl, hop, (toNat_bitField _ 12 4).symm, rfl, BitVec.add_sub_cancel u.pc 1⟩

/-! ## The run on the sequencer -/

/-- The sequencer with `n` cycles of its run's budget left: about to fetch, or with none left back in IDLE and the run
reported completed (R85, R90). -/
def CyclesLeft : Nat → Fsm → Prop
  | 0, m => m.phase = .idle ∧ m.report = .completed
  | n + 1, m => m.phase = .fetch ∧ m.budget = some (n + 1)

/-- The state and the report with which a run ends (R85, R86). -/
def runEnd : Host.Outcome State Fault Refusal → Option (State × Report)
  | .next t => some (t, .completed)
  | .fault (.invalidOpcode op t) => some (t, .aborted op)
  | .refused _ => none

section Sequencer
variable {m : Fsm} {n : Nat} {t : State} {f : Fault}

theorem cyclesLeft_startRun (h : m.phase = .idle) : CyclesLeft n (m.startRun (some n)) := by
  cases n with
  | zero => exact ⟨h, rfl⟩
  | succ n => exact ⟨rfl, rfl⟩

theorem core_startRun (m : Fsm) (b : Option Nat) : (m.startRun b).core = m.core := by
  rw [Fsm.startRun]
  split <;> rfl

/-- DONE uses up one cycle of the budget and leaves the state (R85, R90). -/
theorem cyclesLeft_tick_done (hp : m.phase = .done) (hb : m.budget = some (n + 1)) :
    CyclesLeft n m.tick ∧ m.tick.core = m.core := by
  have hafter : m.budgetAfter = some n := by rw [Fsm.budgetAfter, hb]; rfl
  rw [Fsm.tick_done hp, hafter]
  cases n with
  | zero => exact ⟨⟨rfl, rfl⟩, rfl⟩
  | succ n => exact ⟨⟨by simp, rfl⟩, rfl⟩

/-- A cycle that completes, DONE included, leads to the next one or to the end of the run. -/
theorem ticks_completed_cycle (hm : CyclesLeft (n + 1) m) (h : step m.core = .next t) :
    ∃ k, CyclesLeft n (Fsm.ticks k m) ∧ (Fsm.ticks k m).core = t := by
  obtain ⟨hp, hb⟩ := hm
  obtain ⟨u, hstep, hcycle⟩ := leaves_cycle_valid hp rfl (wellFormed_of_step_next h)
  cases hstep.symm.trans h
  obtain ⟨hleft, hcore⟩ := cyclesLeft_tick_done hcycle.phase (hcycle.budget.trans hb)
  refine ⟨Fsm.cyclePhases (decode (fetch m.core).ir).form + 1, ?_, ?_⟩ <;> rw [Fsm.ticks_add]
  · exact hleft
  · exact hcore.trans hcycle.core

/-- A cycle that stops, ERROR included, leads to IDLE with the opcode reported (R86, R90). -/
theorem ticks_aborted_cycle (hp : m.phase = .fetch) (h : step m.core = .fault f) :
    ∃ k, (Fsm.ticks k m).phase = .idle ∧
      some ((Fsm.ticks k m).core, (Fsm.ticks k m).report) = runEnd (.fault f) := by
  obtain ⟨hwf, rfl⟩ := step_fault h
  obtain ⟨-, hcycle⟩ := leaves_cycle_invalid hp rfl hwf
  refine ⟨Fsm.cyclePhases (decode (fetch m.core).ir).form + 1, ?_⟩
  rw [Fsm.ticks_add, Fsm.ticks, Fsm.ticks, Fsm.tick_error hcycle.phase, hcycle.core]
  exact ⟨rfl, rfl⟩

/-- By induction on the budget: one cycle of the sequencer is one of the run. -/
theorem ticks_run (hm : CyclesLeft n m) :
    ∃ k, (Fsm.ticks k m).phase = .idle ∧
      some ((Fsm.ticks k m).core, (Fsm.ticks k m).report) = runEnd (run n m.core) := by
  induction n generalizing m with
  | zero =>
    obtain ⟨hp, hr⟩ := hm
    exact ⟨0, hp, congrArg (fun r => some (m.core, r)) hr⟩
  | succ n ih =>
    cases hs : step m.core with
    | next t =>
      obtain ⟨j, hleft, rfl⟩ := ticks_completed_cycle hm hs
      obtain ⟨k, hend⟩ := ih hleft
      refine ⟨j + k, ?_⟩
      rwa [Fsm.ticks_add, run_succ_of_next hs]
    | fault f =>
      rw [run_succ_of_fault hs]
      exact ticks_aborted_cycle hm.1 hs
    | refused r => exact absurd hs (step_ne_refused m.core r)

end Sequencer

/-- Settles O56: the start of a run leaves its whole budget, and from there the sequencer's cycles are the run's. -/
theorem sequencerRunIsTheRun : Obligations.SequencerRunIsTheRun := by
  unfold Obligations.SequencerRunIsTheRun
  intro m n h
  obtain ⟨k, hidle, hend⟩ := ticks_run (cyclesLeft_startRun (n := n) h)
  refine ⟨k, hidle, ?_⟩
  rw [core_startRun] at hend
  cases hrun : run n m.core with
  | next t => rw [hrun] at hend; simpa [runEnd] using hend
  | fault f => cases f; rw [hrun] at hend; simpa [runEnd] using hend
  | refused r => rw [hrun] at hend; cases hend

/-! ## The host port -/

section HostPort
variable {m : Fsm} {ws : List Word} {start : Word}

theorem loadProgram_of_fits (s : State) (h : transferFits start ws.length = true) :
    loadProgram s ws start = .next ((writeWords s start.toNat ws).setPc start) := if_pos h

theorem loadProgram_of_not_fits (s : State) (h : transferFits start ws.length = false) :
    loadProgram s ws start = .refused (.transferDoesNotFit start ws.length) := by
  rw [loadProgram, h]
  rfl

/-- In IDLE a load that fits changes the state only (R96, R174). -/
theorem load_of_fits (hp : m.phase = .idle) (h : transferFits start ws.length = true) :
    m.load ws start = .next { m with core := (writeWords m.core start.toNat ws).setPc start } := by
  rw [Fsm.load, Fsm.request_idle hp, loadProgram_of_fits _ h]

theorem load_of_not_fits (hp : m.phase = .idle) (h : transferFits start ws.length = false) :
    m.load ws start = .refused (.transferDoesNotFit start ws.length) := by
  rw [Fsm.load, Fsm.request_idle hp, loadProgram_of_not_fits _ h]

end HostPort

/-- Settles O59: each operation is a request, which IDLE carries out and any other phase refuses. -/
theorem hostPortIsUsableOnlyInIdle : Obligations.HostPortIsUsableOnlyInIdle := by
  unfold Obligations.HostPortIsUsableOnlyInIdle
  intro m ws start n budget
  refine ⟨fun hidle => ?_, fun hbusy => ?_⟩
  · exact ⟨Fsm.request_idle hidle _, fun h => ⟨_, loadProgram_of_fits m.core h, load_of_fits hidle h⟩,
      load_of_not_fits hidle, Fsm.request_idle hidle _, Fsm.request_idle hidle _, Fsm.request_idle hidle _,
      Fsm.request_idle hidle _, Fsm.request_idle hidle _, Fsm.request_idle hidle _⟩
  · exact ⟨Fsm.request_busy hbusy _, Fsm.request_busy hbusy _, Fsm.request_busy hbusy _, Fsm.request_busy hbusy _,
      Fsm.request_busy hbusy _, Fsm.request_busy hbusy _, Fsm.request_busy hbusy _, Fsm.request_busy hbusy _⟩

end Sys2Proof.Proofs.InstructionCycle
end

section
/-! The operate instructions of 41_operate.md: ADD, AND and NOT (R100 to R104). -/

namespace Sys2Proof.Proofs.Operate

open Sys2Proof Sys2Proof.Machine Sys2Proof.Safety Sys2Proof.Proofs.StateRules Sys2Proof.Proofs.Encoding

/-- How every flag-setting instruction ends: the write of a word is the effect of R28 for that word's value. -/
theorem resultIn_writeResult (dr : Reg) (s : State) {v : Word} {k : Nat} (hv : v.toNat = k) :
    ResultIn dr k s (s.writeResult dr v) := by
  subst hv
  obtain ⟨hflags, -⟩ := setccSetsExactlyTheRightFlag v
  refine ⟨?_, hflags, fun r hr => ?_, fun _ => rfl, rfl, rfl⟩
  · rw [State.readReg_writeResult, if_pos rfl]
  · rw [State.readReg_writeResult, if_neg (List.mem_singleton.not.1 hr)]

/-- Settles O13: the words under mask and match are the row of ADD's register mode, and the machine sum is the sum
modulo 65536. -/
theorem addRegisterAddsAndSetsFlags : Obligations.AddRegisterAddsAndSetsFlags := by
  unfold Obligations.AddRegisterAddsAndSetsFlags
  refine ⟨fun w hrow => ?_, fun dr sr1 sr2 s => ⟨_, rfl, resultIn_writeResult dr s (BitVec.toNat_add _ _)⟩⟩
  simp only [← regField_eq_regAt]
  exact decode_eq_of_inRow (f := .addReg) hrow

/-- Settles O14: as the register mode, the second summand being the extended immediate's value (R9). -/
theorem addImmediateAddsAndSetsFlags : Obligations.AddImmediateAddsAndSetsFlags := by
  unfold Obligations.AddImmediateAddsAndSetsFlags
  refine ⟨fun w hrow => ?_, fun dr sr1 imm5 s => ⟨_, rfl, resultIn_writeResult dr s ?_⟩⟩
  · simp only [← regField_eq_regAt, ← bitField_eq_bitsAt]
    exact decode_eq_of_inRow (f := .addImm) hrow
  · rw [BitVec.toNat_add, sext_toNat imm5 (by decide) (by decide)]

/-- Settles O15: the words under mask and match are the row of AND's register mode, and the AND of words is that of
their values. -/
theorem andRegisterMasksAndSetsFlags : Obligations.AndRegisterMasksAndSetsFlags := by
  unfold Obligations.AndRegisterMasksAndSetsFlags
  refine ⟨fun w hrow => ?_, fun dr sr1 sr2 s => ⟨_, rfl, resultIn_writeResult dr s (BitVec.toNat_and _ _)⟩⟩
  simp only [← regField_eq_regAt]
  exact decode_eq_of_inRow (f := .andReg) hrow

/-- Settles O16: as the register mode, the second operand being the extended immediate's value (R9). -/
theorem andImmediateMasksAndSetsFlags : Obligations.AndImmediateMasksAndSetsFlags := by
  unfold Obligations.AndImmediateMasksAndSetsFlags
  refine ⟨fun w hrow => ?_, fun dr sr1 imm5 s => ⟨_, rfl, resultIn_writeResult dr s ?_⟩⟩
  · simp only [← regField_eq_regAt, ← bitField_eq_bitsAt]
    exact decode_eq_of_inRow (f := .andImm) hrow
  · rw [BitVec.toNat_and, sext_toNat imm5 (by decide) (by decide)]

/-- Settles O17: the words under mask and match are NOT's row, and complementing 16 bits subtracts from 65535. -/
theorem notComplementsAndSetsFlags : Obligations.NotComplementsAndSetsFlags := by
  unfold Obligations.NotComplementsAndSetsFlags
  refine ⟨fun w hrow => ?_, fun dr sr s => ⟨_, rfl, resultIn_writeResult dr s BitVec.toNat_not⟩⟩
  simp only [← regField_eq_regAt]
  exact decode_eq_of_inRow (f := .not) hrow

end Sys2Proof.Proofs.Operate
end

section
/-! The control transfers of 42_control_transfer.md: BR, JMP, JSR and JSRR (R110 to R113), and the return from a call through
R7 (R114, R142). -/

namespace Sys2Proof.Proofs.ControlTransfer

open Sys2Proof Sys2Proof.Machine Sys2Proof.Safety Sys2Proof.Proofs.StateRules Sys2Proof.Proofs.Encoding

/-- A write of PC is a transfer that changes no register. -/
theorem wentTo_setPc (s : State) (p : Word) : WentTo p [] s (s.setPc p) :=
  ⟨rfl, fun _ _ => rfl, fun _ => rfl, rfl, rfl⟩

/-- The link and a write of PC are a transfer that changes R7 only (R22). -/
theorem wentTo_link_setPc (s : State) (p : Word) : WentTo p [7] s ((link s).setPc p) := by
  refine ⟨rfl, fun r hr => ?_, fun _ => rfl, rfl, rfl⟩
  rw [State.readReg_setPc, link_readReg, if_neg (List.mem_singleton.not.1 hr)]

/-- A call leaves the return address in R7. -/
theorem readReg_seven_link_setPc (s : State) (p : Word) : ((link s).setPc p).readReg 7 = s.pc := by
  rw [State.readReg_setPc, link_readReg, if_pos rfl]

/-- The PC-relative target over the integers (R24, D6). -/
theorem pcRelative_eq_ofNat {n : Nat} (off : BitVec n) (s : State) (h0 : 0 < n) (h16 : n ≤ 16) :
    pcRelative off s = BitVec.ofNat 16 ((s.pc.toNat + sextNat n off.toNat) % 65536) := by
  rw [← sext_toNat off h0 h16, ← BitVec.toNat_add s.pc (sext off), BitVec.ofNat_toNat, BitVec.setWidth_eq, pcRelative]

/-- BR's condition, bit by bit (R110). -/
theorem condMet_iff (n z p : Bool) (c : Flags) :
    condMet n z p c = true ↔ (n = true ∧ c.n = true) ∨ (z = true ∧ c.z = true) ∨ (p = true ∧ c.p = true) := by
  simp only [condMet, Bool.or_eq_true, Bool.and_eq_true, or_assoc]

/-- Settles O19: the words under mask and match are BR's row; a branch taken writes PC, any other leaves the state. -/
theorem branchGoesWhenAConditionBitMeetsItsFlag : Obligations.BranchGoesWhenAConditionBitMeetsItsFlag := by
  unfold Obligations.BranchGoesWhenAConditionBitMeetsItsFlag
  refine ⟨fun w hrow => ?_, fun n z p off9 s => ⟨_, exec_br n z p off9 s, ?_⟩⟩
  · simp only [← bitAt_eq_flagAt, ← bitField_eq_bitsAt]
    exact decode_eq_of_inRow (f := .br) hrow
  · simp only [← condMet_iff, ← pcRelative_eq_ofNat off9 s (by decide) (by decide)]
    split
    · exact wentTo_setPc s _
    · exact wentTo_setPc s s.pc

/-- Settles O20: the words under mask and match are JMP's row, and JMP is a write of PC. -/
theorem jumpGoesToTheBaseRegister : Obligations.JumpGoesToTheBaseRegister := by
  unfold Obligations.JumpGoesToTheBaseRegister
  refine ⟨fun w hrow => ?_, fun base s => ⟨_, rfl, wentTo_setPc s (s.readReg base)⟩⟩
  simp only [← regField_eq_regAt]
  exact decode_eq_of_inRow (f := .jmp) hrow

/-- Settles O21: the words under mask and match are JSR's row, and JSR is a call to the PC-relative target. -/
theorem jsrLinksAndGoesPcRelative : Obligations.JsrLinksAndGoesPcRelative := by
  unfold Obligations.JsrLinksAndGoesPcRelative
  refine ⟨fun w hrow => ?_, fun off11 s => ⟨_, rfl, readReg_seven_link_setPc s _, ?_⟩⟩
  · simp only [← bitField_eq_bitsAt]
    exact decode_eq_of_inRow (f := .jsr) hrow
  · rw [← pcRelative_eq_ofNat off11 s (by decide) (by decide)]
    exact wentTo_link_setPc s _

/-- Settles O22: the words under mask and match are JSRR's row, and JSRR is a call to the base register as the link left
it, which is the old one or, for R7, the return address. -/
theorem jsrrLinksThenGoesToTheBaseRegister : Obligations.JsrrLinksThenGoesToTheBaseRegister := by
  unfold Obligations.JsrrLinksThenGoesToTheBaseRegister
  refine ⟨fun w hrow => ?_, fun base s => ?_⟩
  · simp only [← regField_eq_regAt]
    exact decode_eq_of_inRow (f := .jsrr) hrow
  · have htarget := jsrrTarget_eq base s
    exact ⟨_, rfl, readReg_seven_link_setPc s _, wentTo_link_setPc s _, fun hbase => htarget.trans (if_neg hbase),
      fun hbase => htarget.trans (if_pos hbase)⟩

/-- JSR, JSRR and TRAP leave in R7 the PC they started with (R112, R113, R140). -/
theorem exec_call_readReg_seven {i : Instr} {s t : State} (hcall : i.form = .jsr ∨ i.form = .jsrr ∨ i.form = .trap)
    (h : exec i s = .next t) : t.readReg 7 = s.pc := by
  cases i with
  | jsr _ => cases h; exact readReg_seven_link_setPc s _
  | jsrr _ => cases h; exact readReg_seven_link_setPc s _
  | trap _ => cases h; exact readReg_seven_link_setPc s _
  | _ => simp [Instr.form] at hcall

/-- Settles O24: the call leaves the return address in R7, and JMP goes to what R7 holds. -/
theorem callsReturnThroughR7 : Obligations.CallsReturnThroughR7 := by
  unfold Obligations.CallsReturnThroughR7
  intro i s t u v hcall hexec hkept hret
  cases hret
  calc (u.setPc (u.readReg 7)).pc = t.readReg 7 := hkept
    _ = s.pc := exec_call_readReg_seven hcall hexec

end Sys2Proof.Proofs.ControlTransfer
end

section
/-! The loads and LEA of 43_loads_and_lea.md: LD, LDI, LDR and LEA (R120 to R123), with their addresses over the
integers (R124). -/

namespace Sys2Proof.Proofs.LoadsAndLea

open Sys2Proof Sys2Proof.Machine Sys2Proof.Safety Sys2Proof.Proofs.StateRules Sys2Proof.Proofs.Encoding
open Sys2Proof.Proofs.Operate Sys2Proof.Proofs.ControlTransfer

/-- The value of a PC-relative address over the integers (R24, R124). -/
theorem toNat_pcRelative {n : Nat} (off : BitVec n) (s : State) (h0 : 0 < n) (h16 : n ≤ 16) :
    (pcRelative off s).toNat = (s.pc.toNat + sextNat n off.toNat) % 65536 := by
  rw [pcRelative, BitVec.toNat_add, sext_toNat off h0 h16]

/-- The value of a base-plus-offset address over the integers (R124). -/
theorem toNat_baseOffset (base : Reg) (off6 : BitVec 6) (s : State) :
    (baseOffset base off6 s).toNat = ((s.readReg base).toNat + sextNat 6 off6.toNat) % 65536 := by
  rw [baseOffset, BitVec.toNat_add, sext_toNat off6 (by decide) (by decide)]

/-- A base-plus-offset address as the word of its integer formula (R124). -/
theorem baseOffset_eq_ofNat (base : Reg) (off6 : BitVec 6) (s : State) :
    baseOffset base off6 s = BitVec.ofNat 16 (((s.readReg base).toNat + sextNat 6 off6.toNat) % 65536) := by
  rw [← toNat_baseOffset, BitVec.ofNat_toNat, BitVec.setWidth_eq]

/-- The pointer of LDI and STI, its own address over the integers (R45, R124). -/
theorem indirect_eq_readMem (off9 : BitVec 9) (s : State) :
    indirect off9 s = s.readMem (BitVec.ofNat 16 ((s.pc.toNat + sextNat 9 off9.toNat) % 65536)) := by
  rw [indirect, pcRelative_eq_ofNat off9 s (by decide) (by decide)]

/-- Settles O26: the words under mask and match are LD's row, and LD writes back the word at the PC-relative address. -/
theorem loadReadsPcRelative : Obligations.LoadReadsPcRelative := by
  unfold Obligations.LoadReadsPcRelative
  refine ⟨fun w hrow => ?_, fun dr off9 s => ⟨_, rfl, resultIn_writeResult dr s ?_⟩⟩
  · simp only [← regField_eq_regAt, ← bitField_eq_bitsAt]
    exact decode_eq_of_inRow (f := .ld) hrow
  · rw [pcRelative_eq_ofNat off9 s (by decide) (by decide)]

/-- Settles O27: the words under mask and match are LDI's row, and LDI writes back the word at the pointer, which is
used as it stands (D3). -/
theorem loadIndirectReadsThroughThePointer : Obligations.LoadIndirectReadsThroughThePointer := by
  unfold Obligations.LoadIndirectReadsThroughThePointer
  refine ⟨fun w hrow => ?_, fun dr off9 s => ⟨_, rfl, resultIn_writeResult dr s ?_⟩⟩
  · simp only [← regField_eq_regAt, ← bitField_eq_bitsAt]
    exact decode_eq_of_inRow (f := .ldi) hrow
  · rw [indirect_eq_readMem]

/-- Settles O28: the words under mask and match are LDR's row, and LDR takes its address from the state before the
write, so DR = BaseR is no case of its own. -/
theorem loadRegisterReadsBasePlusOffset : Obligations.LoadRegisterReadsBasePlusOffset := by
  unfold Obligations.LoadRegisterReadsBasePlusOffset
  refine ⟨fun w hrow => ?_, fun dr base off6 s => ⟨_, rfl, resultIn_writeResult dr s ?_⟩⟩
  · simp only [← regField_eq_regAt, ← bitField_eq_bitsAt]
    exact decode_eq_of_inRow (f := .ldr) hrow
  · rw [baseOffset_eq_ofNat]

/-- Settles O29: the words under mask and match are LEA's row, and LEA writes back the PC-relative address itself, with
no data access listed. -/
theorem leaWritesTheAddressAndSetsFlags : Obligations.LeaWritesTheAddressAndSetsFlags := by
  unfold Obligations.LeaWritesTheAddressAndSetsFlags
  refine ⟨fun w hrow => ?_, fun dr off9 s => ⟨rfl, _, rfl, resultIn_writeResult dr s ?_⟩⟩
  · simp only [← regField_eq_regAt, ← bitField_eq_bitsAt]
    exact decode_eq_of_inRow (f := .lea) hrow
  · exact toNat_pcRelative off9 s (by decide) (by decide)

end Sys2Proof.Proofs.LoadsAndLea
end

section
/-! The stores of 44_stores.md: ST, STI and STR (R130 to R132). -/

namespace Sys2Proof.Proofs.Stores

open Sys2Proof Sys2Proof.Machine Sys2Proof.Safety Sys2Proof.Proofs.MemoryRules Sys2Proof.Proofs.Encoding
open Sys2Proof.Proofs.LoadsAndLea

/-- How every store ends: a write of memory is the effect common to the stores, at that address and with that word. -/
theorem storedAt_writeMem (s : State) (a v : Word) : StoredAt a v s (s.writeMem a v) := by
  obtain ⟨hwrote, hregs, hpc, hir, hcc⟩ := writtenWordIsReadBack s a v
  exact ⟨hwrote, hregs, hcc, hpc, hir⟩

/-- Settles O30: the words under mask and match are ST's row, and ST is a write at the PC-relative address. -/
theorem storeWritesPcRelative : Obligations.StoreWritesPcRelative := by
  unfold Obligations.StoreWritesPcRelative
  refine ⟨fun w hrow => ?_, fun sr off9 s => ⟨?_, _, rfl, storedAt_writeMem s _ _⟩⟩
  · simp only [← regField_eq_regAt, ← bitField_eq_bitsAt]
    exact decode_eq_of_inRow (f := .st) hrow
  · exact toNat_pcRelative off9 s (by decide) (by decide)

/-- Settles O31: the words under mask and match are STI's row, and STI is a write at the pointer, which is read from the
state before the write and used as it stands (D3). -/
theorem storeIndirectWritesThroughThePointer : Obligations.StoreIndirectWritesThroughThePointer := by
  unfold Obligations.StoreIndirectWritesThroughThePointer
  refine ⟨fun w hrow => ?_, fun sr off9 s => ⟨indirect_eq_readMem off9 s, _, rfl, storedAt_writeMem s _ _⟩⟩
  simp only [← regField_eq_regAt, ← bitField_eq_bitsAt]
  exact decode_eq_of_inRow (f := .sti) hrow

/-- Settles O32: the words under mask and match are STR's row, and STR is a write at base plus offset. Address and word
are both read from the state before the write, so SR = BaseR is no case of its own. -/
theorem storeRegisterWritesBasePlusOffset : Obligations.StoreRegisterWritesBasePlusOffset := by
  unfold Obligations.StoreRegisterWritesBasePlusOffset
  refine ⟨fun w hrow => ?_, fun sr base off6 s => ⟨toNat_baseOffset base off6 s, _, rfl, storedAt_writeMem s _ _⟩⟩
  simp only [← regField_eq_regAt, ← bitField_eq_bitsAt]
  exact decode_eq_of_inRow (f := .str) hrow

end Sys2Proof.Proofs.Stores
end

section
/-! TRAP of 45_trap.md (R140), a call through the vector table. -/

namespace Sys2Proof.Proofs.Trap

open Sys2Proof Sys2Proof.Machine Sys2Proof.Safety Sys2Proof.Proofs.Encoding Sys2Proof.Proofs.ControlTransfer

/-- The table stands at address 0 and the vector is zero-extended, so an entry's address is the vector's value (D8). -/
theorem trapEntry_eq_ofNat (vect8 : BitVec 8) : trapEntry vect8 = BitVec.ofNat 16 vect8.toNat :=
  (BitVec.ofNat_toNat 16 vect8).symm

/-- Settles O33: the words under mask and match are TRAP's row, and TRAP is a call to the word at its vector's
entry in the table. -/
theorem trapLinksAndGoesThroughTheTable : Obligations.TrapLinksAndGoesThroughTheTable := by
  unfold Obligations.TrapLinksAndGoesThroughTheTable
  refine ⟨fun w hrow => ?_, fun vect8 s => ⟨_, rfl, readReg_seven_link_setPc s _, ?_⟩⟩
  · simp only [← bitField_eq_bitsAt]
    exact decode_eq_of_inRow (f := .trap) hrow
  · rw [← trapEntry_eq_ofNat]
    exact wentTo_link_setPc s _

end Sys2Proof.Proofs.Trap
end

section
/-! The invalid opcodes of 60_exceptions.md: when the error is raised (R150, R68), the state it leaves (R151), and that
nothing else stops (R153). -/

namespace Sys2Proof.Proofs.Exceptions

open Sys2Proof Sys2Proof.Machine Sys2Proof.Safety Sys2Proof.Proofs.MemoryRules Sys2Proof.Proofs.Encoding
open Sys2Proof.Proofs.InstructionCycle

/-! ## The execute routines -/

/-- Settles O34: each of the two routines is the raise of its opcode, in the state it is given. -/
theorem invalidOpcodesStop : Obligations.InvalidOpcodesStop := by
  unfold Obligations.InvalidOpcodesStop
  exact fun s => ⟨rfl, rfl⟩

/-- A valid form completes, and an invalid opcode leaves a state, which a refusal does not. -/
theorem exec_ne_refused (i : Instr) (s : State) (r : Refusal) : exec i s ≠ .refused r := by
  cases hwf : i.wellFormed with
  | true =>
    obtain ⟨t, hnext⟩ := exec_of_wellFormed hwf s
    rw [hnext]
    nofun
  | false =>
    obtain ⟨hafter, -⟩ := exec_invalid hwf s
    intro h
    rw [h] at hafter
    cases hafter

/-- Settles O38: the valid forms complete, and a stop is that of one of the two invalid opcodes. -/
theorem everyValidFormCompletes : Obligations.EveryValidFormCompletes := by
  unfold Obligations.EveryValidFormCompletes
  refine ⟨fun i s hwf => exec_of_wellFormed hwf s, fun i s f hstop => ?_, exec_ne_refused⟩
  rcases exec_fault_shape hstop with ⟨rfl, rfl⟩ | ⟨rfl, rfl⟩
  · exact ⟨rfl, _, rfl, .inl rfl⟩
  · exact ⟨rfl, _, rfl, .inr rfl⟩

/-! ## The aborted cycle -/

/-- The words of none of the seventeen forms are those of opcode 0x8 or 0xD, whatever their low twelve bits (R68). -/
theorem not_wellFormed_decode_iff (w : Word) :
    (decode w).wellFormed = false ↔ fieldNat w 12 4 = 0x8 ∨ fieldNat w 12 4 = 0xD := by
  have hflag : (decode w).wellFormed = false ↔ (instructionDecoder w).invalid = true := by
    rw [instructionDecoder_invalid, Bool.not_eq_true']
  rw [hflag, ← toNat_bitField]
  simp [instructionDecoder, ← BitVec.toNat_inj]

/-- A step stops exactly on a word of none of the seventeen forms (R84). -/
theorem step_stops_iff (s : State) :
    (∃ f, step s = .fault f) ↔ (decode (s.readMem s.pc)).wellFormed = false := by
  refine ⟨fun ⟨f, hstop⟩ => (step_fault hstop).1, fun hwf => ?_⟩
  rcases step_cases s with ⟨hvalid, -⟩ | ⟨-, hstop⟩
  · cases hwf.symm.trans hvalid
  · exact ⟨_, hstop⟩

/-- Settles O35: the error carries the opcode of the word at PC and the state the fetch leaves, and the fetch writes IR
and PC only. -/
theorem invalidOpcodeLeavesOnlyTheFetch : Obligations.InvalidOpcodeLeavesOnlyTheFetch := by
  unfold Obligations.InvalidOpcodeLeavesOnlyTheFetch
  refine fun s => ⟨(step_stops_iff s).trans (not_wellFormed_decode_iff _), fun f hstop => ?_⟩
  obtain ⟨-, hf⟩ := step_fault hstop
  obtain ⟨hir, hpc, hregs, hcc, hmem, -⟩ := fetchLoadsIrAndAdvancesPc s
  exact ⟨_, fetch s, hf, toNat_bitField _ 12 4, hir, hpc, BitVec.add_sub_cancel s.pc 1, hregs, hcc, hmem⟩

end Sys2Proof.Proofs.Exceptions
end

section
/-! Reset (70_reset_and_hazards.md, 10_state.md section 7), the host's load and peek (R174), how runs add up (R85), the
run without a budget (D20), the order of JSRR's two steps (D7), and the sample words of 95_test_vectors.md section 2.8. -/

namespace Sys2Proof.Proofs.ResetAndHost

open Sys2Proof Sys2Proof.Machine Sys2Proof.Safety Sys2Proof.Proofs.StateRules Sys2Proof.Proofs.MemoryRules
open Sys2Proof.Proofs.InstructionCycle

/-! ## Load and peek -/

section Load
variable {s : State} {ws : List Word} {start : Word}

theorem not_transferFits_of_gt {n : Nat} (h : 65536 < start.toNat + n) : transferFits start n = false := by
  rw [← Bool.not_eq_true, transferFits_iff]
  omega

theorem peekMemory_of_fits {n : Nat} (s : State) (h : transferFits start n = true) :
    peekMemory s start n = .next ((List.range n).map fun i => s.readMem (start + BitVec.ofNat 16 i)) := if_pos h

theorem peekMemory_of_not_fits {n : Nat} (s : State) (h : transferFits start n = false) :
    peekMemory s start n = .refused (.transferDoesNotFit start n) := by
  rw [peekMemory, h]
  rfl

/-- A place in a range that fits is not wrapped (R10, R56). -/
theorem toNat_add_ofNat_of_fits {i : Nat} (h : start.toNat + i < 65536) :
    (start + BitVec.ofNat 16 i).toNat = start.toNat + i := by
  rw [BitVec.toNat_add, BitVec.toNat_ofNat]
  omega

/-- The word at each place of a range written is the one given for it (R174). -/
theorem readMem_writeWords_inside (h : start.toNat + ws.length ≤ 65536) {i : Nat} (hi : i < ws.length) :
    (writeWords s start.toNat ws).readMem (start + BitVec.ofNat 16 i) = ws[i] := by
  have hplace := toNat_add_ofNat_of_fits (start := start) (i := i) (by omega)
  rw [readMem_writeWords _ _ _ _ h, hplace, if_pos (by omega), Nat.add_sub_cancel_left, List.getD_eq_getElem _ _ hi]

theorem readMem_writeWords_outside (h : start.toNat + ws.length ≤ 65536) {a : Word}
    (ha : a.toNat < start.toNat ∨ start.toNat + ws.length ≤ a.toNat) :
    (writeWords s start.toNat ws).readMem a = s.readMem a := by
  rw [readMem_writeWords _ _ _ _ h, if_neg (by omega)]

/-- A peek of the range written finds the words written (R163, R174). -/
theorem peekMemory_writeWords (h : start.toNat + ws.length ≤ 65536) :
    peekMemory (writeWords s start.toNat ws) start ws.length = .next ws := by
  rw [peekMemory_of_fits _ ((transferFits_iff _ _).2 h)]
  congr 1
  refine List.ext_getElem (by simp) fun i _ hi => ?_
  rw [List.getElem_map, List.getElem_range, readMem_writeWords_inside h hi]

end Load

/-- Settles O50: the words are read back place by place, PC apart no other piece of state is written, and what does not
fit is refused by the check of R56. -/
theorem loadedProgramIsReadBack : Obligations.LoadedProgramIsReadBack := by
  unfold Obligations.LoadedProgramIsReadBack
  refine ⟨fun s ws start h => ?_, fun s ws start h => loadProgram_of_not_fits s (not_transferFits_of_gt h),
    fun s a n h => peekMemory_of_not_fits s (not_transferFits_of_gt h), fun s ws => rfl⟩
  obtain ⟨hregs, -, hir, hcc⟩ := writeWords_rest ws s start.toNat
  have hsame : RegsSameBut [] s ((writeWords s start.toNat ws).setPc start) := fun r _ => by
    rw [State.readReg_setPc, State.readReg, hregs, State.readReg]
  exact ⟨_, loadProgram_of_fits s ((transferFits_iff _ _).2 h), peekMemory_writeWords h, rfl, hsame, hir, hcc,
    fun a ha => readMem_writeWords_outside h ha⟩

/-! ## Runs -/

/-- Settles O52, by induction on the first run's cycles: its first cycle is the whole run's, and an error in it ends
both. -/
theorem runsCompose : Obligations.RunsCompose := by
  unfold Obligations.RunsCompose
  intro m n
  induction m with
  | zero =>
    intro s
    rw [Nat.zero_add]
    rfl
  | succ m ih =>
    intro s
    rw [Nat.succ_add]
    cases hs : step s with
    | next t => rw [run_succ_of_next hs, run_succ_of_next hs, ih]
    | fault f => rw [run_succ_of_fault hs, run_succ_of_fault hs]
    | refused r => exact absurd hs (step_ne_refused s r)

/-- A run without a budget: still going on with nothing to report, or back in IDLE by the error (R85, R90). -/
def Unbounded (m : Fsm) : Prop :=
  (m.phase ≠ .idle ∧ m.budget = none ∧ m.report = .none) ∨ (m.phase = .idle ∧ ∃ op, m.report = .aborted op)

section Unbounded
variable {m : Fsm}

/-- Only DONE and ERROR end a run: any other phase leads to a phase of the same cycle, budget and report untouched
(R90). -/
theorem tick_of_going_on (hidle : m.phase ≠ .idle) (hdone : m.phase ≠ .done) (herror : m.phase ≠ .error) :
    m.tick.phase ≠ .idle ∧ m.tick.budget = m.budget ∧ m.tick.report = m.report := by
  cases hp : m.phase with
  | idle => exact absurd hp hidle
  | done => exact absurd hp hdone
  | error => exact absurd hp herror
  | fetch => rw [(Fsm.tick_fetch hp).1]; exact ⟨nofun, rfl, rfl⟩
  | decode => rw [(tick_decode hp).1]; exact ⟨by split <;> nofun, rfl, rfl⟩
  | exec => rw [tick_exec hp]; exact ⟨by split <;> nofun, rfl, rfl⟩
  | mem1 => rw [tick_mem1 hp]; exact ⟨by split <;> nofun, rfl, rfl⟩
  | mem2 => rw [tick_mem2 hp rfl]; exact ⟨nofun, rfl, rfl⟩

/-- DONE without a budget starts the next cycle (R85, R90). -/
theorem tick_done_of_unbounded (hp : m.phase = .done) (hb : m.budget = none) :
    m.tick = { m with phase := .fetch } := by
  have hafter : m.budgetAfter = none := by rw [Fsm.budgetAfter, hb]; rfl
  rw [Fsm.tick_done hp, hafter, hb]
  rfl

theorem unbounded_startRun (m : Fsm) : Unbounded (m.startRun none) := .inl ⟨nofun, rfl, rfl⟩

theorem Unbounded.tick (h : Unbounded m) : Unbounded m.tick := by
  rcases h with ⟨hidle, hbudget, hreport⟩ | ⟨hidle, haborted⟩
  · by_cases hdone : m.phase = .done
    · rw [tick_done_of_unbounded hdone hbudget]
      exact .inl ⟨nofun, hbudget, hreport⟩
    · by_cases herror : m.phase = .error
      · rw [Fsm.tick_error herror]
        exact .inr ⟨rfl, _, rfl⟩
      · obtain ⟨hphase, hb, hr⟩ := tick_of_going_on hidle hdone herror
        exact .inl ⟨hphase, hb.trans hbudget, hr.trans hreport⟩
  · rw [Fsm.tick_idle hidle]
    exact .inr ⟨hidle, haborted⟩

theorem Unbounded.ticks (k : Nat) (h : Unbounded m) : Unbounded (Fsm.ticks k m) := by
  induction k generalizing m with
  | zero => exact h
  | succ k ih => exact ih h.tick

theorem Unbounded.report_ne_completed (h : Unbounded m) : m.report ≠ .completed := by
  rcases h with ⟨-, -, hreport⟩ | ⟨-, _, hreport⟩ <;> rw [hreport] <;> nofun

theorem Unbounded.aborted_of_idle (h : Unbounded m) (hidle : m.phase = .idle) : ∃ op, m.report = .aborted op := by
  rcases h with ⟨hbusy, -⟩ | ⟨-, haborted⟩
  · exact absurd hidle hbusy
  · exact haborted

end Unbounded

/-- Settles O57: DONE never finds a budget to use up, so only ERROR brings the sequencer back to IDLE. -/
theorem unboundedRunNeverCompletes : Obligations.UnboundedRunNeverCompletes := by
  unfold Obligations.UnboundedRunNeverCompletes
  intro m k _
  have h := (unbounded_startRun m).ticks k
  exact ⟨h.report_ne_completed, h.aborted_of_idle⟩

/-! ## The sample words, JSRR and reset -/

/-- Settles O1, by evaluating the decoder on the twenty-one words. -/
theorem sampleWordsDecode : Obligations.SampleWordsDecode := by
  unfold Obligations.SampleWordsDecode
  decide

theorem jsrrTarget_linkFirst (base : Reg) (s : State) : jsrrTarget true base s = (link s).readReg base := rfl

theorem jsrrTarget_readFirst (base : Reg) (s : State) : jsrrTarget false base s = s.readReg base := rfl

/-- Settles O23: the two orders differ only in whether the base register is read before or after the link, which writes
R7 alone. -/
theorem jsrrOrderMattersOnlyForR7 : Obligations.JsrrOrderMattersOnlyForR7 := by
  unfold Obligations.JsrrOrderMattersOnlyForR7
  refine fun base s => ⟨fun hbase => ?_, ?_, jsrrTarget_readFirst 7 s⟩
  · rw [jsrrTarget_linkFirst, jsrrTarget_readFirst, link_readReg, if_neg hbase]
  · rw [jsrrTarget_linkFirst, link_readReg, if_pos rfl]

/-- Every register reads 0x0000 after reset, whatever the value of `CC_RESET` (R33). -/
theorem readReg_resetWith (c : Config.CcReset) (r : Reg) : (State.resetWith c).readReg r = 0 :=
  Vector.getElem_replicate r.isLt

/-- Memory lists no word after reset, so every address reads 0x0000 (R33, R41). -/
theorem readMem_resetWith (c : Config.CcReset) (a : Word) : (State.resetWith c).readMem a = 0 := rfl

/-- Settles O47: the registers are eight copies of 0, and memory is empty. -/
theorem resetZeroesEverything : Obligations.ResetZeroesEverything := by
  unfold Obligations.ResetZeroesEverything
  exact ⟨readReg_resetWith _, rfl, rfl, rfl, rfl, rfl, readMem_resetWith _⟩

end Sys2Proof.Proofs.ResetAndHost
end
